-- ==== Sys2Proof/Word.lean ====
section
/-! DEFINITION. Words and bytes: all words are unsigned 32-bit values, bytes unsigned 8-bit values (00_scope.md R7). -/

namespace Sys2Proof

/-- A 32-bit word (R7). -/
abbrev Word := BitVec 32

/-- A byte (R7). -/
abbrev Byte := BitVec 8

end Sys2Proof
end

