-- ==== Sys2Proof/Config.lean ====
section
/-! DEFINITION. What an implementation fixes (00_scope.md R6, 43_registry.md R170), and the free values: constants
without a body, so that nothing can be proved of what they are (93_implementation_defined.md U2, U14). -/

namespace Sys2Proof

/-- Which engine implementation a descriptor's factory produces; this hardware has one (R170, R176). -/
inductive Transform where
  | chacha20
  deriving DecidableEq, Repr

/-- One entry of the registry ROM (43_registry.md R170). -/
structure Descriptor where
  id : Byte
  name : List Byte
  keyLen : Byte
  nonceLen : Byte
  transform : Transform
  deriving DecidableEq, Repr

/-- The named parameters (00_scope.md R6). -/
structure Config where
  nEngines : Nat
  registry : List Descriptor
  debugEn : Bool
  deriving DecidableEq, Repr

/-- What R170 asks of each descriptor of this hardware: a name of 1 to 255 bytes, a 32-byte key and a nonce of 8 or 12 bytes. -/
def Descriptor.legal (d : Descriptor) : Bool :=
  decide (1 ≤ d.name.length) && decide (d.name.length ≤ 255) && d.keyLen == 32
    && (d.nonceLen == 8 || d.nonceLen == 12)

/-- A legal registry: legal descriptors, pairwise distinct ids, pairwise distinct names (R170). -/
def registryLegal (r : List Descriptor) : Bool :=
  r.all Descriptor.legal && decide (r.map (·.id)).Nodup && decide (r.map (·.name)).Nodup

/-- A configuration of this unit: 1 to 16 engines (R6) and a legal registry (R170). -/
def Config.legal (c : Config) : Bool :=
  decide (1 ≤ c.nEngines) && decide (c.nEngines ≤ 16) && registryLegal c.registry

/-- The entry of the default registry for the 8-byte nonce: "chacha20" (R171). -/
def descriptorClassic : Descriptor :=
  { id := 0, name := [0x63, 0x68, 0x61, 0x63, 0x68, 0x61, 0x32, 0x30], keyLen := 32, nonceLen := 8,
    transform := .chacha20 }

/-- The entry of the default registry for the 12-byte nonce: "chacha20-ietf" (R171). -/
def descriptorIetf : Descriptor :=
  { id := 1, name := [0x63, 0x68, 0x61, 0x63, 0x68, 0x61, 0x32, 0x30, 0x2d, 0x69, 0x65, 0x74, 0x66],
    keyLen := 32, nonceLen := 12, transform := .chacha20 }

/-- The defaults of the three parameters (R6, R171). -/
def Config.default : Config :=
  { nEngines := 2, registry := [descriptorClassic, descriptorIetf], debugEn := true }

/-- Free value (U2): the method id a slot holds once its contents are unspecified.
First argument the slot's index, second the slot's own count of such events. -/
opaque Config.freeMid : Nat → Nat → Byte

/-- Free value (U2, U14): the sixteen state words a slot holds once its contents are unspecified. -/
opaque Config.freeWords : Nat → Nat → Vector Word 16

/-- Free value (U2, U14): the keystream buffer a slot holds once its contents are unspecified. -/
opaque Config.freeBuf : Nat → Nat → Vector Byte 64

/-- Free value (U2): the cursor a slot holds once its contents are unspecified, within the register's range (R28). -/
opaque Config.freeCur : Nat → Nat → Fin 65

end Sys2Proof
end

