-- ==== Sys2Proof/Syntax.lean ====
section
/-! DEFINITION. The eight host commands (00_scope.md R2, 30_encoding.md R72, R74) as one inductive, one constructor per row
of the opcode table, and a command as it stands at the command port (R70). -/

namespace Sys2Proof

/-- The SLOT field: four bits (R71). -/
abbrev SlotIndex := BitVec 4

/-- The METHOD field: eight bits (R71). -/
abbrev MethodId := BitVec 8

/-- A command: a 32-bit header word and a payload of bytes (R70, R86). -/
structure Command where
  header : BitVec 32
  payload : List Byte
  deriving DecidableEq, Repr

/-- A decoded command with its operands (R74). Byte strings carry their own lengths: KLEN, NLEN and ARG are those lengths. -/
inductive Instr where
  /-- RESOLVE: a method name (R173). -/
  | resolve (name : List Byte)
  /-- CREATE: slot, method id, key bytes, nonce bytes (R145). -/
  | create (slot : SlotIndex) (method : MethodId) (key nonce : List Byte)
  /-- UPDATE: slot, data bytes (R150). -/
  | update (slot : SlotIndex) (data : List Byte)
  /-- SETIV: slot, nonce bytes (R160). -/
  | setiv (slot : SlotIndex) (nonce : List Byte)
  /-- DESTROY: slot (R165). -/
  | destroy (slot : SlotIndex)
  /-- RDSTATE: slot (R186). -/
  | rdstate (slot : SlotIndex)
  /-- WRCTR: slot, the value for word 12, the value for word 13 (R188). -/
  | wrctr (slot : SlotIndex) (lo hi : Word)
  /-- QROUND: the four words of a quarter round (R190). -/
  | qround (a b c d : Word)
  deriving DecidableEq, Repr

end Sys2Proof
end

