-- ==== Sys2Proof/Machine/State.lean ====
section
/-! DEFINITION. The state of the unit as plain data (10_state.md), the command port's two sides (30_encoding.md R70, R76), the
reasons a step can stop, and the state after reset. -/

namespace Sys2Proof.Machine

/-- The lifecycle phase of a slot (R30). Its two-bit code is phaseCode; the code 3 is never written. -/
inductive Phase where
  /-- No engine in the slot. -/
  | uninit
  /-- An engine constructed or re-keyed with a nonce, no UPDATE since. -/
  | init
  /-- At least one UPDATE since the last CREATE or SETIV. -/
  | stream
  deriving DecidableEq, Repr

/-- The five status codes (R77). -/
inductive Status where
  | ok
  | invalidParameter
  | unsupportedMethod
  | noEngine
  | illegalCommand
  deriving DecidableEq, Repr

/-- One engine slot (R20). -/
structure Slot where
  /-- Lifecycle phase (R30). -/
  phase : Phase
  /-- Method id of the descriptor that created the engine, 8 bits (R30). -/
  mid : Byte
  /-- The sixteen state words: constant 0-3, key 4-11, counter and nonce 12-15 (R21 to R24). -/
  st : Vector Word 16
  /-- The keystream buffer (R28). -/
  buf : Vector Byte 64
  /-- The buffer's cursor, 0 to 64 (R28). -/
  cur : Fin 65
  /-- The MODEL's own field (log entry 6): how many times this slot's contents became unspecified (R37).
  It picks the next free value. -/
  draws : Nat
  deriving DecidableEq, Repr

/-- A response: a 32-bit status word and a payload (R70, R76). -/
structure Response where
  status : BitVec 32
  payload : List Byte
  deriving DecidableEq, Repr

/-- What the host can do to the unit between steps: issue a command (R13), reset it (R230). -/
inductive Input where
  | command (c : Command)
  | reset
  deriving DecidableEq, Repr

/-- The state of the unit. N_ENGINES is the number of slots (R20). -/
structure State where
  /-- The registry ROM: configuration, changed by no step (R170, R172). -/
  registry : List Descriptor
  /-- The parameter DEBUG_EN: configuration, changed by no step (R185). -/
  debugEn : Bool
  /-- The engine slots, slot e at index e (R20). -/
  slots : List Slot
  /-- The inputs at the command port in order of arrival (R60), the next one first. -/
  inbox : List Input
  /-- The responses given so far, in order (R60), the oldest first. -/
  outbox : List Response
  deriving DecidableEq, Repr

/-- The machine never stops with a fault: the four errors of R200 are responses. So there is no constructor. -/
inductive Fault
  deriving DecidableEq, Repr

/-- Why a step has no meaning. -/
inductive Refusal where
  /-- Raised by an arm of exec that has no meaning yet (none is left). Safe: the run stops. -/
  | notModelled (mnemonic : String)
  /-- Raised by step on an input whose payload does not have the length its header gives: no command (R70, R86).
  Safe: the run stops where the spec gives no behaviour. -/
  | notACommand
  /-- Raised by CREATE where the registry asks for a key that is not 32 bytes: not a configuration of this unit (R170, U16).
  Safe: the run stops where the spec gives no behaviour. -/
  | registryOutsideSpec
  deriving DecidableEq, Repr

/-- A slot after reset: UNINIT (R36). The spec gives its contents no value (R37); zero is a DESIGN CHOICE (log entry 5). -/
def Slot.reset : Slot :=
  { phase := .uninit, mid := 0, st := Vector.replicate 16 0, buf := Vector.replicate 64 0, cur := 0, draws := 0 }

/-- The unit right after reset in the default configuration: every slot UNINIT (R36, R230), configuration at its defaults
(R6, R38), nothing at the command port (log entries 1, 2). -/
def State.reset : State :=
  { registry := Config.default.registry, debugEn := Config.default.debugEn,
    slots := List.replicate Config.default.nEngines Slot.reset, inbox := [], outbox := [] }

end Sys2Proof.Machine
end

