-- ==== Sys2Proof/Machine/Flags.lean ====
section
/-! DEFINITION. The unit has no flags, condition codes or predicates (10_state.md R32). What stands in their place: the status
word a command leaves in its response (30_encoding.md R76, R77), the code of a slot's phase (R30), and the carry CTRINC uses
and does not store (41_block_function.md R130). -/

namespace Sys2Proof.Machine

/-- The status codes (R77). -/
def statusCode : Status → BitVec 8
  | .ok => 0x00
  | .invalidParameter => 0x01
  | .unsupportedMethod => 0x02
  | .noEngine => 0x03
  | .illegalCommand => 0x04

/-- The status word RSP: RLEN in bits 31 to 16, zero in 15 to 8, STATUS in 7 to 0 (R76). -/
def statusWord (rlen : Nat) (st : Status) : BitVec 32 :=
  BitVec.ofNat 16 rlen ++ (0 : BitVec 8) ++ statusCode st

/-- RLEN of a status word (R76). -/
def statusRlen (w : BitVec 32) : Nat := (w.extractLsb' 16 16).toNat

/-- STATUS of a status word (R76). -/
def statusField (w : BitVec 32) : BitVec 8 := w.extractLsb' 0 8

/-- The two-bit code of a phase (R30). -/
def phaseCode : Phase → BitVec 2
  | .uninit => 0
  | .init => 1
  | .stream => 2

/-- The carry of CTRINC: the incremented word 12 is zero (R130). Used at once, stored nowhere (R32). -/
def counterCarry (newWord12 : Word) : Bool := newWord12 == 0

end Sys2Proof.Machine
end

