-- ==== Sys2Proof/Machine/Operands.lean ====
section
/-! DEFINITION. Operand forms: bytes to words and back, always little-endian (20_memory.md R50 to R52; notation of
00_scope.md R8). -/

namespace Sys2Proof.Machine

/-- Little-endian load of four bytes: b0 + 2^8 b1 + 2^16 b2 + 2^24 b3 (R8, R50). -/
def le32 (b0 b1 b2 b3 : Byte) : Word :=
  b0.setWidth 32 ||| (b1.setWidth 32 <<< 8) ||| (b2.setWidth 32 <<< 16) ||| (b3.setWidth 32 <<< 24)

/-- Byte j of a word: bits 8j+7 down to 8j (R51). -/
def wordByte (w : Word) (j : Nat) : Byte := w.extractLsb' (8 * j) 8

/-- The four bytes of a word, least significant first (R8, R51). -/
def bytesLe32 (w : Word) : List Byte := [wordByte w 0, wordByte w 1, wordByte w 2, wordByte w 3]

/-- Byte j of a byte string. Every caller reads below the string's length, so the 0 of a missing byte is never read. -/
def byteAt (bs : List Byte) (j : Nat) : Byte := bs.getD j 0

/-- Word i of a byte string: its bytes 4i to 4i+3, little-endian (R23, R24, R50). -/
def wordAt (bs : List Byte) (i : Nat) : Word :=
  le32 (byteAt bs (4 * i)) (byteAt bs (4 * i + 1)) (byteAt bs (4 * i + 2)) (byteAt bs (4 * i + 3))

end Sys2Proof.Machine
end

