-- ==== Sys2Proof/Machine/QuarterRound.lean ====
section
/-! DEFINITION. The quarter-round unit (40_quarter_round.md): the three word operations and QR. None has a flag, an error or a
host encoding (R100 to R103). -/

namespace Sys2Proof.Machine

/-- ADD32: addition modulo 2^32, the carry discarded (R100). -/
def add32 (a b : Word) : Word := a + b

/-- XOR32: bitwise exclusive-or (R101). -/
def xor32 (a b : Word) : Word := a ^^^ b

/-- ROTL32: rotation to the left by 0 < n < 32 (R8, R102). -/
def rotl32 (v : Word) (n : Nat) : Word := (v <<< n) ||| (v >>> (32 - n))

/-- QR: the twelve steps in their order, each on the values the steps before it produced (R103). -/
def quarterRound (a b c d : Word) : Word × Word × Word × Word :=
  let a := add32 a b
  let d := xor32 d a
  let d := rotl32 d 16
  let c := add32 c d
  let b := xor32 b c
  let b := rotl32 b 12
  let a := add32 a b
  let d := xor32 d a
  let d := rotl32 d 8
  let c := add32 c d
  let b := xor32 b c
  let b := rotl32 b 7
  (a, b, c, d)

end Sys2Proof.Machine
end

