-- ==== Sys2Proof/Machine/Block.lean ====
section
/-! DEFINITION. The block function (41_block_function.md): sixteen working registers, ten double rounds, feed-forward,
serialisation, counter advance, cursor reset. No part can fail (R132). -/

namespace Sys2Proof.Machine

/-- A group of four working registers, by index: the roles a, b, c, d of QR (R122). -/
abbrev RegGroup := Fin 16 × Fin 16 × Fin 16 × Fin 16

/-- Steps 0 to 3 of the QR schedule: the column groups (R83, R122). -/
def columnGroups : List RegGroup := [(0, 4, 8, 12), (1, 5, 9, 13), (2, 6, 10, 14), (3, 7, 11, 15)]

/-- Steps 4 to 7 of the QR schedule: the diagonal groups (R83, R122). -/
def diagonalGroups : List RegGroup := [(0, 5, 10, 15), (1, 6, 11, 12), (2, 7, 8, 13), (3, 4, 9, 14)]

/-- One step of the schedule: QR on the registers of a group, each overwritten by its own new value (R105, R123). -/
def quarterRoundAt (x : Vector Word 16) (g : RegGroup) : Vector Word 16 :=
  match g with
  | (ia, ib, ic, id) =>
    match quarterRound x[ia] x[ib] x[ic] x[id] with
    | (a, b, c, d) => (((x.set ia a).set ib b).set ic c).set id d

/-- DROUND: the four column groups, then the four diagonal groups (R123). -/
def doubleRound (x : Vector Word 16) : Vector Word 16 :=
  diagonalGroups.foldl quarterRoundAt (columnGroups.foldl quarterRoundAt x)

/-- n double rounds. -/
def doubleRounds : Nat → Vector Word 16 → Vector Word 16
  | 0, x => x
  | n + 1, x => doubleRounds n (doubleRound x)

/-- PERMUTE: ten double rounds (R124). -/
def permute (x : Vector Word 16) : Vector Word 16 := doubleRounds 10 x

/-- FEEDFWD: each working word plus the original state word (R126). -/
def feedForward (x st : Vector Word 16) : Vector Word 16 := Vector.zipWith add32 x st

/-- SERIALIZE: byte j of the output is byte j mod 4 of word j / 4 (R52, R127). -/
def serialize (y : Vector Word 16) : Vector Byte 64 :=
  Vector.ofFn fun j : Fin 64 => wordByte y[j.val / 4] (j.val % 4)

/-- KSBLOCK: the 64 keystream bytes of sixteen state words (R131); COPYIN is the use of st as the first x (R121). -/
def keystreamBlock (st : Vector Word 16) : Vector Byte 64 := serialize (feedForward (permute st) st)

/-- CTRINC: word 12 plus one; where that is zero, word 13 plus one, whatever the nonce's layout (R130). -/
def counterIncrement (st : Vector Word 16) : Vector Word 16 :=
  let w12 := add32 st[12] 1
  let st' := st.set 12 w12
  if counterCarry w12 then st'.set 13 (add32 st[13] 1) else st'

/-- BLOCK: the buffer refilled from the state as it stands, then the counter advanced and the cursor reset (R128, R131). -/
def block (sl : Slot) : Slot :=
  { sl with st := counterIncrement sl.st, buf := keystreamBlock sl.st, cur := 0 }

end Sys2Proof.Machine
end

