-- ==== Sys2Proof/WellFormed.lean ====
section
/-! DEFINITION. Which instruction terms are commands: the operands fit the header's length fields (30_encoding.md R73 to R75),
and the configuration admits the command (R79 (b) and (e)). -/

namespace Sys2Proof

/-- The operands fit their length fields: ARG is 16 bits, KLEN and NLEN of CREATE are 8 bits each (R73, R75). -/
def Instr.fits : Instr → Bool
  | .resolve name => decide (name.length ≤ 65535)
  | .create _ _ key nonce => decide (key.length ≤ 255) && decide (nonce.length ≤ 255)
  | .update _ data => decide (data.length ≤ 65535)
  | .setiv _ nonce => decide (nonce.length ≤ 65535)
  | .destroy _ => true
  | .rdstate _ => true
  | .wrctr _ _ _ => true
  | .qround _ _ _ _ => true

/-- The slot an instruction addresses, if it is slot-addressed (R72). -/
def Instr.slot? : Instr → Option SlotIndex
  | .resolve _ => none
  | .create e _ _ _ => some e
  | .update e _ => some e
  | .setiv e _ => some e
  | .destroy e => some e
  | .rdstate e => some e
  | .wrctr e _ _ => some e
  | .qround _ _ _ _ => none

/-- The three test-access commands (R185). -/
def Instr.isDebug : Instr → Bool
  | .resolve _ => false
  | .create _ _ _ _ => false
  | .update _ _ => false
  | .setiv _ _ => false
  | .destroy _ => false
  | .rdstate _ => true
  | .wrctr _ _ _ => true
  | .qround _ _ _ _ => true

/-- The configuration admits the instruction: a debug command needs DEBUG_EN (R79 (b)), a slot-addressed one a slot
below N_ENGINES (R79 (e)). -/
def Instr.allowed (cfg : Config) (i : Instr) : Bool :=
  (!i.isDebug || cfg.debugEn) &&
    (match i.slot? with
     | none => true
     | some e => decide (e.toNat < cfg.nEngines))

/-- A well-formed instruction of a configuration: encodable and admitted. -/
def Instr.wellFormed (cfg : Config) (i : Instr) : Bool := i.fits && i.allowed cfg

end Sys2Proof
end

