-- ==== Sys2Proof/Decode.lean ====
section
/-! DEFINITION. The command decoder (30_encoding.md R70 to R75, R79, R81, R82): total on every header and payload, each
rejection with a name of its own; then the encoder, written from the same tables. -/

namespace Sys2Proof

open Sys2Proof.Machine (wordAt bytesLe32)

/-- The commands of the opcode map (R72). -/
inductive Opcode where
  | resolve | create | update | setiv | destroy | rdstate | wrctr | qround
  deriving DecidableEq, Repr

/-- Why a header is illegal: R79 (a) to (e), in that order. -/
inductive IllegalReason where
  /-- R79 (a): OP is 0, 6, 7 or 0xB to 0xF. -/
  | reservedOpcode
  /-- R79 (b): OP is 8, 9 or 0xA and DEBUG_EN is false. -/
  | debugDisabled
  /-- R79 (c): a must-be-zero field is not zero. -/
  | mustBeZero
  /-- R79 (d): WRCTR with ARG other than 8, QROUND with ARG other than 16. -/
  | fixedArg
  /-- R79 (e): a slot-addressed command with SLOT at or above N_ENGINES. -/
  | slotOutOfRange
  deriving DecidableEq, Repr

/-- Why the decoder rejects what stands at the command port. -/
inductive DecodeError where
  /-- The payload's length is not PLEN(H): no command at all (R70, R86). -/
  | notACommand
  /-- A command with an illegal header (R79). -/
  | illegal (r : IllegalReason)
  deriving DecidableEq, Repr

/-- OP: bits 31 to 28 (R71). -/
def headerOp (h : BitVec 32) : BitVec 4 := h.extractLsb' 28 4

/-- SLOT: bits 27 to 24 (R71). -/
def headerSlot (h : BitVec 32) : SlotIndex := h.extractLsb' 24 4

/-- METHOD: bits 23 to 16 (R71). -/
def headerMethod (h : BitVec 32) : MethodId := h.extractLsb' 16 8

/-- ARG: bits 15 to 0 (R71), a byte count. -/
def headerArg (h : BitVec 32) : Nat := (h.extractLsb' 0 16).toNat

/-- KLEN: bits 15 to 8 of a CREATE header (R75). -/
def headerKlen (h : BitVec 32) : Nat := (h.extractLsb' 8 8).toNat

/-- NLEN: bits 7 to 0 of a CREATE header (R75). -/
def headerNlen (h : BitVec 32) : Nat := (h.extractLsb' 0 8).toNat

/-- The opcode map (R72): the command an OP value selects, none where it is reserved. -/
def opcodeOf (op : BitVec 4) : Option Opcode :=
  if op = 0x1 then some .resolve
  else if op = 0x2 then some .create
  else if op = 0x3 then some .update
  else if op = 0x4 then some .setiv
  else if op = 0x5 then some .destroy
  else if op = 0x8 then some .rdstate
  else if op = 0x9 then some .wrctr
  else if op = 0xA then some .qround
  else none

/-- The OP value of a command (R72). -/
def opcodeBits : Opcode → BitVec 4
  | .resolve => 0x1
  | .create => 0x2
  | .update => 0x3
  | .setiv => 0x4
  | .destroy => 0x5
  | .rdstate => 0x8
  | .wrctr => 0x9
  | .qround => 0xA

/-- The payload length PLEN(H), from the header alone (R73, R81). -/
def plen (h : BitVec 32) : Nat :=
  match opcodeOf (headerOp h) with
  | some .create => headerKlen h + headerNlen h
  | some .destroy => 0
  | some .rdstate => 0
  | some .resolve => headerArg h
  | some .update => headerArg h
  | some .setiv => headerArg h
  | some .wrctr => headerArg h
  | some .qround => headerArg h
  | none => headerArg h

/-- A command is well formed when its payload has the length its header says (R70). -/
def wellFormedCommand (c : Command) : Bool := c.payload.length == plen c.header

/-- The commands that decode only when DEBUG_EN is true (R72, R185). -/
def opcodeIsDebug : Opcode → Bool
  | .rdstate | .wrctr | .qround => true
  | .resolve | .create | .update | .setiv | .destroy => false

/-- The slot-addressed commands (R72). -/
def opcodeHasSlot : Opcode → Bool
  | .create | .update | .setiv | .destroy | .rdstate | .wrctr => true
  | .resolve | .qround => false

/-- The must-be-zero fields of R74 are zero: SLOT where the command has none, METHOD in all but CREATE, ARG of DESTROY and
RDSTATE. -/
def mbzFieldsZero (op : Opcode) (h : BitVec 32) : Bool :=
  (opcodeHasSlot op || headerSlot h == 0)
    && (op == .create || headerMethod h == 0)
    && (!(op == .destroy || op == .rdstate) || headerArg h == 0)

/-- The fixed ARG values of R74: 8 for WRCTR, 16 for QROUND. -/
def fixedArgRight (op : Opcode) (h : BitVec 32) : Bool :=
  (!(op == .wrctr) || headerArg h == 8) && (!(op == .qround) || headerArg h == 16)

/-- The legality check of R79, its conditions in the order (a) to (e) (R82 step 2, R211): the first that holds, or the
command the header selects. -/
def checkHeader (cfg : Config) (h : BitVec 32) : Except IllegalReason Opcode :=
  match opcodeOf (headerOp h) with
  | none => .error .reservedOpcode
  | some op =>
    if opcodeIsDebug op && !cfg.debugEn then .error .debugDisabled
    else if !mbzFieldsZero op h then .error .mustBeZero
    else if !fixedArgRight op h then .error .fixedArg
    else if opcodeHasSlot op && decide (cfg.nEngines ≤ (headerSlot h).toNat) then .error .slotOutOfRange
    else .ok op

/-- The operands of a command from its header and payload (R74, R75). -/
def assemble (op : Opcode) (h : BitVec 32) (p : List Byte) : Instr :=
  match op with
  | .resolve => .resolve p
  | .create => .create (headerSlot h) (headerMethod h) (p.take (headerKlen h)) (p.drop (headerKlen h))
  | .update => .update (headerSlot h) p
  | .setiv => .setiv (headerSlot h) p
  | .destroy => .destroy (headerSlot h)
  | .rdstate => .rdstate (headerSlot h)
  | .wrctr => .wrctr (headerSlot h) (wordAt p 0) (wordAt p 1)
  | .qround => .qround (wordAt p 0) (wordAt p 1) (wordAt p 2) (wordAt p 3)

/-- The decode procedure (R82): is it a command (R70), is its header legal (R79), then its operands. -/
def decode (cfg : Config) (c : Command) : Except DecodeError Instr :=
  if wellFormedCommand c then
    match checkHeader cfg c.header with
    | .error r => .error (.illegal r)
    | .ok op => .ok (assemble op c.header c.payload)
  else .error .notACommand

/-- A header word from its fields: OP, SLOT, METHOD, ARG from the most significant bits down (R71). -/
def headerOf (op : Opcode) (slot : SlotIndex) (method : MethodId) (arg : BitVec 16) : BitVec 32 :=
  opcodeBits op ++ slot ++ method ++ arg

/-- The header of an instruction (R74, R75). -/
def encodeHeader : Instr → BitVec 32
  | .resolve name => headerOf .resolve 0 0 (BitVec.ofNat 16 name.length)
  | .create e m key nonce =>
      headerOf .create e m (BitVec.ofNat 8 key.length ++ BitVec.ofNat 8 nonce.length)
  | .update e data => headerOf .update e 0 (BitVec.ofNat 16 data.length)
  | .setiv e nonce => headerOf .setiv e 0 (BitVec.ofNat 16 nonce.length)
  | .destroy e => headerOf .destroy e 0 0
  | .rdstate e => headerOf .rdstate e 0 0
  | .wrctr e _ _ => headerOf .wrctr e 0 8
  | .qround _ _ _ _ => headerOf .qround 0 0 16

/-- The payload of an instruction (R74). -/
def encodePayload : Instr → List Byte
  | .resolve name => name
  | .create _ _ key nonce => key ++ nonce
  | .update _ data => data
  | .setiv _ nonce => nonce
  | .destroy _ => []
  | .rdstate _ => []
  | .wrctr _ lo hi => bytesLe32 lo ++ bytesLe32 hi
  | .qround a b c d => bytesLe32 a ++ bytesLe32 b ++ bytesLe32 c ++ bytesLe32 d

/-- The command of an instruction. -/
def encode (i : Instr) : Command := { header := encodeHeader i, payload := encodePayload i }

/-- The command whose bits are w, numbered as the opcode table numbers them: the header is bits 31 to 0, payload byte j is
bits 39+8j down to 32+8j, and every bit at or above nbits is 0. The payload has the length the header gives it (R73).
That the bytes lie in this order is a DESIGN CHOICE (log entry 10): the spec's commands are values (R86). -/
def tableCommand (nbits w : Nat) : Command :=
  let bits := w % 2 ^ nbits
  let h := BitVec.ofNat 32 bits
  { header := h, payload := (List.range (plen h)).map fun j => BitVec.ofNat 8 (bits >>> (32 + 8 * j)) }

/-- The instruction the decoder reads from a word of the opcode table, in the default configuration. -/
def decodeTableWord (nbits w : Nat) : Option Instr := (decode Config.default (tableCommand nbits w)).toOption

end Sys2Proof
end

