-- ==== Sys2Proof/Machine/Ops.lean ====
section
/-! DEFINITION. The named operations over slots and the command port: reading and writing a slot, responding, error entry
(60_exceptions.md R200, R212), the checks of R211 that every slot-addressed or debug command shares, making a slot's contents
unspecified (R37), the reset event (R230), and taking the next input. There is no return from an error (R213). -/

namespace Sys2Proof.Machine

/-- What a meaning answers. -/
abbrev Result := Host.Outcome State Fault Refusal

/-- The configuration of the machine (R6): N_ENGINES is the number of slots (R20). -/
def State.config (s : State) : Config :=
  { nEngines := s.slots.length, registry := s.registry, debugEn := s.debugEn }

/-- The slot a SLOT field selects, none at or above N_ENGINES (R34). -/
def State.slot? (s : State) (e : SlotIndex) : Option Slot := s.slots[e.toNat]?

/-- Write the slot a SLOT field selects; no other slot changes (R20). -/
def State.setSlot (s : State) (e : SlotIndex) (sl : Slot) : State :=
  { s with slots := s.slots.set e.toNat sl }

/-- The response with a status and a payload: RLEN is the payload's length (R70, R76). -/
def responseOf (st : Status) (q : List Byte) : Response :=
  { status := statusWord q.length st, payload := q }

/-- Give the host a response (R70). -/
def State.respond (s : State) (st : Status) (q : List Byte) : State :=
  { s with outbox := s.outbox ++ [responseOf st q] }

/-- Error entry, the one place it happens (R200, R212): the response is the error's status with an empty payload (R78), and
nothing else changes. What a CREATE or SETIV does to its slot on an error stands in the state it is given. -/
def raise (s : State) (err : Status) : Result := .next (s.respond err [])

/-- A command's normal end: its OK response (R78). -/
def finish (s : State) (q : List Byte) : Result := .next (s.respond .ok q)

/-- A slot whose engine is gone: UNINIT, its contents unspecified (R37, R161, R165; U2, U14), so each is a free value (log
entry 6). -/
def freedSlot (e : Nat) (draws : Nat) : Slot :=
  { phase := .uninit, mid := Config.freeMid e draws, st := Config.freeWords e draws,
    buf := Config.freeBuf e draws, cur := Config.freeCur e draws, draws := draws + 1 }

/-- phase[e] <- UNINIT (R145, R160, R165, R212): the slot no longer holds an engine. -/
def State.invalidate (s : State) (e : SlotIndex) (sl : Slot) : State :=
  s.setSlot e (freedSlot e.toNat sl.draws)

/-- A slot-addressed command: SLOT at or above N_ENGINES is illegal (R79 (e), R203). -/
def withSlot (s : State) (e : SlotIndex) (k : Slot → Result) : Result :=
  match s.slot? e with
  | none => raise s .illegalCommand
  | some sl => k sl

/-- A command that needs an engine in its slot: ERR_NO_ENGINE on an UNINIT slot, no state change (R204). -/
def withEngine (s : State) (e : SlotIndex) (k : Slot → Result) : Result :=
  withSlot s e fun sl => if sl.phase = .uninit then raise s .noEngine else k sl

/-- A test-access command: illegal where DEBUG_EN is false (R79 (b), R185). -/
def withDebug (s : State) (r : Result) : Result := if s.debugEn then r else raise s .illegalCommand

/-- The reset event (R230): every slot UNINIT with unspecified contents (R36, R37), configuration unchanged (R38). It is no
command, so it has no response. -/
def resetEvent (s : State) : State :=
  { s with slots := s.slots.mapIdx fun e sl => freedSlot e sl.draws }

/-- What stands next at the command port. -/
inductive Fetched where
  /-- Nothing: a unit that receives no command keeps all state (R225). -/
  | idle
  /-- A reset (R230), with the state once it is taken. -/
  | reset (s : State)
  /-- A header with a payload of another length: no command (R70). -/
  | notACommand
  /-- A command with an illegal header (R79), with the state once it is taken. -/
  | illegal (s : State)
  /-- A legal command, decoded, with the state once it is taken. -/
  | run (i : Instr) (s : State)
  deriving DecidableEq, Repr

/-- Take the next input in order of arrival (R60) and decode it (R82). -/
def fetch (s : State) : Fetched :=
  match s.inbox with
  | [] => .idle
  | .reset :: rest => .reset { s with inbox := rest }
  | .command c :: rest =>
    match decode s.config c with
    | .error .notACommand => .notACommand
    | .error (.illegal _) => .illegal { s with inbox := rest }
    | .ok i => .run i { s with inbox := rest }

end Sys2Proof.Machine
end

