-- ==== Sys2Proof/Machine/Debug.lean ====
section
/-! DEFINITION. Test access (44_debug.md): RDSTATE, WRCTR and QROUND, which decode only where DEBUG_EN is true (R185). -/

namespace Sys2Proof.Machine

/-- The twenty bytes RDSTATE returns: phase, mid, cur, 0, then words 12 to 15; never a key word or a buffer byte (R186). -/
def slotReport (sl : Slot) : List Byte :=
  [(phaseCode sl.phase).setWidth 8, sl.mid, BitVec.ofNat 8 sl.cur.val, 0x00]
    ++ bytesLe32 sl.st[12] ++ bytesLe32 sl.st[13] ++ bytesLe32 sl.st[14] ++ bytesLe32 sl.st[15]

/-- RDSTATE (R186). -/
def execRdstate (slot : SlotIndex) (s : State) : Result :=
  withDebug s (withEngine s slot fun sl => finish s (slotReport sl))

/-- WRCTR: words 12 and 13, nothing else; the buffer is not regenerated (R188). -/
def execWrctr (slot : SlotIndex) (lo hi : Word) (s : State) : Result :=
  withDebug s (withEngine s slot fun sl =>
    finish (s.setSlot slot { sl with st := (sl.st.set 12 lo).set 13 hi }) [])

/-- QROUND: QR of the four operands; no slot is read or written (R190). -/
def execQround (a b c d : Word) (s : State) : Result :=
  withDebug s
    (match quarterRound a b c d with
     | (a', b', c', d') => finish s (bytesLe32 a' ++ bytesLe32 b' ++ bytesLe32 c' ++ bytesLe32 d'))

end Sys2Proof.Machine
end

