-- ==== Sys2Proof/Machine/Registry.lean ====
section
/-! DEFINITION. The cipher registry and the method multiplexer (43_registry.md), and the command RESOLVE. -/

namespace Sys2Proof.Machine

/-- lookup_name: the descriptor whose name has the same bytes, exactly (R174). -/
def lookupName (r : List Descriptor) (name : List Byte) : Option Descriptor :=
  r.find? fun d => d.name == name

/-- lookup_id: the descriptor with the method id (R177). -/
def lookupId (r : List Descriptor) (m : MethodId) : Option Descriptor :=
  r.find? fun d => d.id == m

/-- The multiplexer's select input for an engine in being: the transform its method id names (R176). Where the id names none
(in no state a run reaches) the one input there is (log entry 8). -/
def selectTransform (r : List Descriptor) (m : MethodId) : Transform :=
  match lookupId r m with
  | some d => d.transform
  | none => .chacha20

/-- MUX: connect an engine operation to the implementation the tag names; with one implementation, the identity (R176). -/
def mux {α : Type} (t : Transform) (chacha20Op : α) : α :=
  match t with
  | .chacha20 => chacha20Op

/-- RESOLVE (R173, R175). -/
def execResolve (name : List Byte) (s : State) : Result :=
  match lookupName s.registry name with
  | none => raise s .unsupportedMethod
  | some d => finish s [d.id, d.keyLen, d.nonceLen]

end Sys2Proof.Machine
end

