-- ==== Sys2Proof/Machine/Engine.lean ====
section
/-! DEFINITION. The engine and the streaming XOR front end (42_engine_streaming.md): STATEINIT, SETNONCE, XORLANE, the update
loop, and the commands CREATE, UPDATE, SETIV and DESTROY. -/

namespace Sys2Proof.Machine

/-- SIGMA: the four constant words, "expand 32-byte k" in little-endian words (R22; the spec marks all but its first nine
characters as general knowledge, log entry 14). -/
def sigma : Vector Word 4 := #v[0x61707865, 0x3320646e, 0x79622d32, 0x6b206574]

/-- STATEINIT: words 0-3 SIGMA, words 4-11 the key (R22, R23, R140). Words 12-15 are not touched. -/
def stateInit (st : Vector Word 16) (key : List Byte) : Vector Word 16 :=
  #v[sigma[0], sigma[1], sigma[2], sigma[3],
     wordAt key 0, wordAt key 1, wordAt key 2, wordAt key 3,
     wordAt key 4, wordAt key 5, wordAt key 6, wordAt key 7,
     st[12], st[13], st[14], st[15]]

/-- The nonce lengths an engine accepts (R25). -/
def nonceLengthOk (n : Nat) : Bool := n == 8 || n == 12

/-- SETNONCE: counter 0 and the nonce words in the layout its length selects, classic for 8 bytes, extended for 12 (R24,
R141). Words 0-11 are not touched. The caller has checked the length. -/
def setNonce (st : Vector Word 16) (nonce : List Byte) : Vector Word 16 :=
  if nonce.length = 8 then
    (((st.set 12 0).set 13 0).set 14 (wordAt nonce 0)).set 15 (wordAt nonce 1)
  else
    (((st.set 12 0).set 13 (wordAt nonce 0)).set 14 (wordAt nonce 1)).set 15 (wordAt nonce 2)

/-- XORLANE (R142). -/
def xorLane (i8 k8 : Byte) : Byte := i8 ^^^ k8

/-- The buffer bytes not yet consumed: indices cur to 63 (R28, R151). -/
def unreadBytes (sl : Slot) : List Byte := sl.buf.toList.drop sl.cur.val

/-- The two steps of UPDATE (R150). While 64 - cur is at most what is left of the input, XOR that many bytes and refill; then
XOR the tail and move the cursor. The fuel bounds the passes; streamSlot gives more than are made (log entry 13). -/
def streamLoop : Nat → Slot → List Byte → Slot × List Byte
  | 0, sl, _ => (sl, [])
  | fuel + 1, sl, input =>
    if h : 64 - sl.cur.val ≤ input.length then
      let k := 64 - sl.cur.val
      let rest := streamLoop fuel (block sl) (input.drop k)
      (rest.1, List.zipWith xorLane (input.take k) (unreadBytes sl) ++ rest.2)
    else
      ({ sl with cur := ⟨sl.cur.val + input.length, by omega⟩ }, List.zipWith xorLane input (unreadBytes sl))

/-- UPDATE's transform of a slot and an input: the slot after it, phase apart, and the output (R150). -/
def streamSlot (sl : Slot) (input : List Byte) : Slot × List Byte := streamLoop (input.length + 2) sl input

/-- STATEINIT, SETNONCE, BLOCK: an engine constructed in a slot (R144). -/
def constructEngine (sl : Slot) (key nonce : List Byte) : Slot :=
  block { sl with st := setNonce (stateInit sl.st key) nonce }

/-- SETNONCE, BLOCK: an engine re-keyed with a nonce (R160). -/
def resyncEngine (sl : Slot) (nonce : List Byte) : Slot :=
  block { sl with st := setNonce sl.st nonce }

/-- CREATE (R145, R146). On an error the slot is UNINIT, whatever it held. The last refusal is reached under no registry
R170 allows (log entry 7). -/
def execCreate (slot : SlotIndex) (method : MethodId) (key nonce : List Byte) (s : State) : Result :=
  withSlot s slot fun sl =>
    match lookupId s.registry method with
    | none => raise (s.invalidate slot sl) .unsupportedMethod
    | some d =>
      if key.length ≠ d.keyLen.toNat then raise (s.invalidate slot sl) .invalidParameter
      else if !nonceLengthOk nonce.length then raise (s.invalidate slot sl) .invalidParameter
      else if key.length ≠ 32 then .refused .registryOutsideSpec
      else
        let engine := mux d.transform (constructEngine { sl with mid := method } key nonce)
        finish (s.setSlot slot { engine with phase := .init }) []

/-- UPDATE (R150, R156). -/
def execUpdate (slot : SlotIndex) (data : List Byte) (s : State) : Result :=
  withEngine s slot fun sl =>
    let r := mux (selectTransform s.registry sl.mid) (streamSlot sl data)
    finish (s.setSlot slot { r.1 with phase := .stream }) r.2

/-- SETIV (R160, R161). -/
def execSetiv (slot : SlotIndex) (nonce : List Byte) (s : State) : Result :=
  withEngine s slot fun sl =>
    if nonceLengthOk nonce.length then
      let engine := mux (selectTransform s.registry sl.mid) (resyncEngine sl nonce)
      finish (s.setSlot slot { engine with phase := .init }) []
    else raise (s.invalidate slot sl) .invalidParameter

/-- DESTROY (R165): on an empty slot it changes nothing. -/
def execDestroy (slot : SlotIndex) (s : State) : Result :=
  withSlot s slot fun sl =>
    if sl.phase = .uninit then finish s [] else finish (s.invalidate slot sl) []

end Sys2Proof.Machine
end

