-- ==== Sys2Proof/Machine/Dispatch.lean ====
section
/-! DEFINITION. One arm per instruction (30_encoding.md R82 step 3). -/

namespace Sys2Proof.Machine

def exec (i : Instr) (s : State) : Host.Outcome State Fault Refusal :=
  match i with
  | .resolve name => Sys2Proof.Machine.execResolve name s
  | .create slot method key nonce => Sys2Proof.Machine.execCreate slot method key nonce s
  | .update slot data => Sys2Proof.Machine.execUpdate slot data s
  | .setiv slot nonce => Sys2Proof.Machine.execSetiv slot nonce s
  | .destroy slot => Sys2Proof.Machine.execDestroy slot s
  | .rdstate slot => Sys2Proof.Machine.execRdstate slot s
  | .wrctr slot lo hi => Sys2Proof.Machine.execWrctr slot lo hi s
  | .qround a b c d => Sys2Proof.Machine.execQround a b c d s

end Sys2Proof.Machine
end

