-- ==== Sys2Proof/Machine/Step.lean ====
section
/-! DEFINITION. One step: the next input of the command port, taken and carried out at once and to completion (20_memory.md
R55, R60; 30_encoding.md R82). -/

namespace Sys2Proof.Machine

/-- One step of the unit. An illegal command answers ERR_ILLEGAL_COMMAND and changes nothing else (R79, R203). -/
def step (s : State) : Host.Outcome State Fault Refusal :=
  match fetch s with
  | .idle => .next s
  | .reset s' => .next (resetEvent s')
  | .notACommand => .refused .notACommand
  | .illegal s' => raise s' .illegalCommand
  | .run i s' => exec i s'

/-- s with the command whose bits are w (numbered as the opcode table numbers them) next at the command port: the host
presents it before whatever else waits there (log entry 1). -/
def State.withFetchWord (s : State) (nbits w : Nat) : State :=
  { s with inbox := .command (tableCommand nbits w) :: s.inbox }

end Sys2Proof.Machine
end

