-- ==== Sys2Proof/Safety.lean ====
section
/-! DEFINITION. What claims speak of: the invariant every step keeps, the keystream of an engine and a slot's place in it
(10_state.md R31, R39, R40; 42_engine_streaming.md R154, R157), runs of UPDATEs, what a command leaves alone, when two states
cannot be told apart, and R79 in plain numbers. -/

namespace Sys2Proof.Machine

/-- What every slot that holds an engine keeps: SIGMA in words 0-3 (R22, R39 (a)) and a cursor below 64 (R29, R39 (c)). -/
def SlotInv (sl : Slot) : Prop :=
  sl.phase ≠ .uninit →
    (∀ i : Fin 4, sl.st[i.val] = sigma[i.val]) ∧ sl.cur.val ≤ 63

/-- The invariant of the unit: a configuration the spec allows (R6, R170), and SlotInv of every slot. -/
def State.Inv (s : State) : Prop := s.config.legal = true ∧ ∀ sl ∈ s.slots, SlotInv sl

/-- Every command waiting at the port is one (R70): the duty of the transport (R86). -/
def InboxOfCommands (s : State) : Prop := ∀ c, Input.command c ∈ s.inbox → wellFormedCommand c = true

/-- The state words after g counter increments (R157: S_(g+1) is S_g after CTRINC). -/
def counterAfter : Nat → Vector Word 16 → Vector Word 16
  | 0, st => st
  | g + 1, st => counterIncrement (counterAfter g st)

/-- The sixteen words STATEINIT and SETNONCE leave for a key and a nonce (S_1 of R157). -/
def streamStart (key nonce : List Byte) : Vector Word 16 :=
  setNonce (stateInit (Vector.replicate 16 0) key) nonce

/-- Byte j mod 64 of a buffer. -/
def bufferByte (buf : Vector Byte 64) (j : Nat) : Byte := buf[j % 64]'(Nat.mod_lt j (by decide))

/-- KS[p]: byte p of the keystream that starts from the words s1 (R157). -/
def keystreamByte (s1 : Vector Word 16) (p : Nat) : Byte :=
  bufferByte (keystreamBlock (counterAfter (p / 64) s1)) p

/-- The slot is at position pos of the keystream that starts from the words s1: the buffer holds block pos / 64, the words
have been advanced once more, and the cursor is pos mod 64 (R31, R154). -/
structure StreamAt (s1 : Vector Word 16) (pos : Nat) (sl : Slot) : Prop where
  words : sl.st = counterAfter (pos / 64 + 1) s1
  buffer : sl.buf = keystreamBlock (counterAfter (pos / 64) s1)
  cursor : sl.cur.val = pos % 64

/-- UPDATEs of a slot issued one after the other, and the concatenation of what they return (R154, R155). -/
def runUpdates (e : SlotIndex) : List (List Byte) → State → Option (State × List Byte)
  | [], s => some (s, [])
  | d :: ds, s =>
    match exec (.update e d) s with
    | .next t =>
      match t.outbox.getLast?, runUpdates e ds t with
      | some r, some (u, out) => some (u, r.payload ++ out)
      | _, _ => none
    | .fault _ => none
    | .refused _ => none

/-- The frame of a command addressed to slot e: every other slot, the configuration and the waiting inputs are as before. -/
def OnlySlotChanged (e : SlotIndex) (s t : State) : Prop :=
  t.registry = s.registry ∧ t.debugEn = s.debugEn ∧ t.inbox = s.inbox ∧ t.slots.length = s.slots.length ∧
    ∀ j : Nat, j ≠ e.toNat → t.slots[j]? = s.slots[j]?

/-- Two slots no command can tell apart: the same phase and, where it is not UNINIT, the same contents (R37). -/
def SlotAgrees (a b : Slot) : Prop :=
  a.phase = b.phase ∧
    (a.phase ≠ .uninit → a.mid = b.mid ∧ a.st = b.st ∧ a.buf = b.buf ∧ a.cur = b.cur)

/-- Two states that agree in all but the contents of UNINIT slots (R37, U2). -/
def StateAgrees (s t : State) : Prop :=
  t.registry = s.registry ∧ t.debugEn = s.debugEn ∧ t.inbox = s.inbox ∧ t.outbox = s.outbox ∧
    List.Forall₂ SlotAgrees s.slots t.slots

/-- Two slots that differ at most in what no report may show: state words 0 to 11 and the buffer's bytes (R26, R35). -/
def SlotReportAgrees (a b : Slot) : Prop :=
  a.phase = b.phase ∧ a.mid = b.mid ∧ a.cur = b.cur ∧
    ∀ i : Fin 16, 12 ≤ i.val → a.st[i.val] = b.st[i.val]

/-- R79 in plain numbers: the header h is illegal for n slots and the parameter debugEn. -/
def IllegalByNumbers (n : Nat) (debugEn : Bool) (h : Nat) : Prop :=
  let op := h / 2 ^ 28
  let slot := h / 2 ^ 24 % 16
  let method := h / 2 ^ 16 % 256
  let arg := h % 2 ^ 16
  op ∈ [0, 6, 7, 11, 12, 13, 14, 15] ∨
  (op ∈ [8, 9, 10] ∧ debugEn = false) ∨
  (op ∈ [1, 10] ∧ slot ≠ 0) ∨ (op ≠ 2 ∧ method ≠ 0) ∨ (op ∈ [5, 8] ∧ arg ≠ 0) ∨
  (op = 9 ∧ arg ≠ 8) ∨ (op = 10 ∧ arg ≠ 16) ∨
  (op ∈ [2, 3, 4, 5, 8, 9] ∧ n ≤ slot)

/-- The statuses a command may report (R206). -/
def statusesOf : Instr → List Status
  | .resolve _ => [.ok, .illegalCommand, .unsupportedMethod]
  | .create _ _ _ _ => [.ok, .illegalCommand, .unsupportedMethod, .invalidParameter]
  | .update _ _ => [.ok, .illegalCommand, .noEngine]
  | .setiv _ _ => [.ok, .illegalCommand, .noEngine, .invalidParameter]
  | .destroy _ => [.ok, .illegalCommand]
  | .rdstate _ => [.ok, .illegalCommand, .noEngine]
  | .wrctr _ _ _ => [.ok, .illegalCommand, .noEngine]
  | .qround _ _ _ _ => [.ok, .illegalCommand]

/-- The phase of the addressed slot after a command, by the phase before it and whether the command answered OK: the table of
R143. A command that addresses no slot has no row and keeps every phase. -/
def phaseAfter (i : Instr) (ok : Bool) (p : Phase) : Phase :=
  match i with
  | .create _ _ _ _ => if ok then .init else .uninit
  | .update _ _ => if ok then .stream else p
  | .setiv _ _ => if ok then .init else .uninit
  | .destroy _ => .uninit
  | .rdstate _ => p
  | .wrctr _ _ _ => p
  | .resolve _ => p
  | .qround _ _ _ _ => p

end Sys2Proof.Machine
end

