-- ==== Sys2Proof/Certificates/Slice0/Obligations.lean ====
section
/-! DEFINITION. The statements for the provers, from the spec's numbered rules. -/

open Sys2Proof Sys2Proof.Machine

/-! Reset, the command port, decoding. -/

/-- R36: after reset every slot is UNINIT. -/
def Obligations.ResetLeavesEverySlotEmpty : Prop :=
  ∀ (e : SlotIndex) (sl : Slot), State.reset.slot? e = some sl → sl.phase = .uninit

/-- R230: the reset event makes every slot UNINIT and leaves the configuration as it was. That it is an input without a
response, and that responses already given stay, is the model's choice (log entry 9). -/
def Obligations.ResetEventEmptiesEverySlot : Prop :=
  ∀ (s : State) (rest : List Input), s.inbox = .reset :: rest →
    ∃ t, step s = .next t ∧ t.slots.length = s.slots.length ∧ (∀ sl ∈ t.slots, sl.phase = .uninit) ∧
      t.registry = s.registry ∧ t.debugEn = s.debugEn ∧ t.inbox = rest ∧ t.outbox = s.outbox

/-- R225: "A unit that receives no command does nothing and keeps all state." -/
def Obligations.IdleUnitKeepsAllState : Prop :=
  ∀ s : State, s.inbox = [] → step s = .next s

/-- R82: a command that decodes is carried out by exec, on the state with that command taken from the port; and a word placed by
withFetchWord is the command the next step runs (log entries 1, 10). -/
def Obligations.StepRunsTheDecodedCommand : Prop :=
  (∀ (s : State) (c : Command) (rest : List Input) (i : Instr),
    s.inbox = .command c :: rest → decode s.config c = .ok i → step s = exec i { s with inbox := rest }) ∧
  ∀ (s : State) (nbits w : Nat) (i : Instr),
    decode s.config (tableCommand nbits w) = .ok i → step (s.withFetchWord nbits w) = exec i s

/-- R79, R203: an illegal header answers ERR_ILLEGAL_COMMAND with no payload and changes no slot. -/
def Obligations.IllegalHeaderIsAnswered : Prop :=
  ∀ (s : State) (c : Command) (rest : List Input),
    s.inbox = .command c :: rest → wellFormedCommand c = true →
    IllegalByNumbers s.slots.length s.debugEn c.header.toNat →
    step s = .next { s with inbox := rest, outbox := s.outbox ++ [⟨0x00000004, []⟩] }

/-- R79 read both ways: the decoder rejects a command exactly where one of the conditions (a) to (e) holds. -/
def Obligations.DecoderRejectsExactlyIllegalHeaders : Prop :=
  ∀ (cfg : Config) (c : Command), wellFormedCommand c = true →
    ((∃ r, decode cfg c = .error (.illegal r)) ↔ IllegalByNumbers cfg.nEngines cfg.debugEn c.header.toNat)

/-- Input of another payload length is no command (R70); that a step refuses it is the model's choice (log entry 3). -/
def Obligations.MalformedInputIsRefused : Prop :=
  ∀ (s : State) (c : Command) (rest : List Input),
    s.inbox = .command c :: rest → c.payload.length ≠ plen c.header → step s = .refused .notACommand

/-- R73: the payload length, from the header alone, in plain numbers. -/
def Obligations.PayloadLengthFromHeader : Prop :=
  ∀ h : BitVec 32,
    plen h =
      if h.toNat / 2 ^ 28 = 2 then h.toNat / 2 ^ 8 % 256 + h.toNat % 256
      else if h.toNat / 2 ^ 28 = 5 ∨ h.toNat / 2 ^ 28 = 8 then 0
      else h.toNat % 2 ^ 16

/-- Decoding the encoding of a well-formed instruction gives the instruction back. -/
def Obligations.DecodeOfEncodeIsTheInstruction : Prop :=
  ∀ (cfg : Config) (i : Instr), i.wellFormed cfg = true → decode cfg (encode i) = .ok i

/-- Every command the decoder accepts is the encoding of what it decodes to, and that is well formed. -/
def Obligations.AcceptedCommandsAreEncodings : Prop :=
  ∀ (cfg : Config) (c : Command) (i : Instr), decode cfg c = .ok i → encode i = c ∧ i.wellFormed cfg = true

/-- One header of each command from 95_test_vectors.md V42 decodes to the command it stands for. The RESOLVE payload is that of V40,
the QROUND payload that of V43; the other payloads are bytes chosen here, as long as the header says. -/
def Obligations.ExampleHeadersDecode : Prop :=
  decode Config.default ⟨0x2101200c, List.replicate 32 1 ++ List.replicate 12 2⟩
      = .ok (.create 1 1 (List.replicate 32 1) (List.replicate 12 2)) ∧
  decode Config.default ⟨0x3100000e, List.replicate 14 7⟩ = .ok (.update 1 (List.replicate 14 7)) ∧
  decode Config.default ⟨0x4000000c, List.replicate 12 3⟩ = .ok (.setiv 0 (List.replicate 12 3)) ∧
  decode Config.default ⟨0x51000000, []⟩ = .ok (.destroy 1) ∧
  decode Config.default ⟨0x1000000d, [0x63, 0x68, 0x61, 0x63, 0x68, 0x61, 0x32, 0x30, 0x2d, 0x69, 0x65, 0x74, 0x66]⟩
      = .ok (.resolve [0x63, 0x68, 0x61, 0x63, 0x68, 0x61, 0x32, 0x30, 0x2d, 0x69, 0x65, 0x74, 0x66]) ∧
  decode Config.default ⟨0x81000000, []⟩ = .ok (.rdstate 1) ∧
  decode Config.default ⟨0x90000008, [0xff, 0xff, 0xff, 0xff, 0x01, 0x00, 0x00, 0x02]⟩
      = .ok (.wrctr 0 0xffffffff 0x02000001) ∧
  decode Config.default ⟨0xa0000010, [0x11, 0x11, 0x11, 0x11, 0x04, 0x03, 0x02, 0x01,
      0x43, 0x6f, 0x8d, 0x9b, 0x67, 0x45, 0x23, 0x01]⟩
      = .ok (.qround 0x11111111 0x01020304 0x9b8d6f43 0x01234567)

/-- R70: a command, legal or not, gets exactly one response, whose payload has the length its status word says; no command
stops the unit, under any registry R170 allows. -/
def Obligations.EveryCommandGetsOneResponse : Prop :=
  ∀ (s : State) (c : Command) (rest : List Input),
    s.inbox = .command c :: rest → wellFormedCommand c = true → registryLegal s.registry = true →
    ∃ t r, step s = .next t ∧ t.inbox = rest ∧ t.outbox = s.outbox ++ [r] ∧
      r.payload.length = r.status.toNat / 2 ^ 16

/-- R76: the status word: RLEN in bits 31 to 16, zero, the code of R77 in bits 7 to 0. -/
def Obligations.StatusWordLayout : Prop :=
  ∀ n : Nat, n < 65536 →
    (statusWord n .ok).toNat = n * 2 ^ 16 ∧
    (statusWord n .invalidParameter).toNat = n * 2 ^ 16 + 1 ∧
    (statusWord n .unsupportedMethod).toNat = n * 2 ^ 16 + 2 ∧
    (statusWord n .noEngine).toNat = n * 2 ^ 16 + 3 ∧
    (statusWord n .illegalCommand).toNat = n * 2 ^ 16 + 4

/-! Rules of the whole machine. -/

/-- The invariant (R39 (a) and (c), with a configuration R6 and R170 allow) holds at reset. -/
def Obligations.InvariantHoldsAtReset : Prop := State.reset.Inv

/-- Every step keeps the invariant: in a slot with an engine, SIGMA in words 0-3 and the cursor below 64 (R39 (a) and (c)). -/
def Obligations.StepKeepsTheInvariant : Prop :=
  ∀ s t : State, s.Inv → step s = .next t → t.Inv

/-- R172: no step changes the registry; nor DEBUG_EN, nor the number of slots. -/
def Obligations.ConfigurationNeverChanges : Prop :=
  ∀ s t : State, step s = .next t →
    t.registry = s.registry ∧ t.debugEn = s.debugEn ∧ t.slots.length = s.slots.length

/-- R20: a command writes no slot but the one it addresses, and the port and configuration only by one more response. -/
def Obligations.OnlyTheAddressedSlotChanges : Prop :=
  ∀ (i : Instr) (s t : State), exec i s = .next t →
    t.registry = s.registry ∧ t.debugEn = s.debugEn ∧ t.inbox = s.inbox ∧ t.slots.length = s.slots.length ∧
    (∀ j : Nat, (∀ e, i.slot? = some e → j ≠ e.toNat) → t.slots[j]? = s.slots[j]?) ∧
    ∃ r, t.outbox = s.outbox ++ [r]

/-- R56: RESOLVE, RDSTATE and QROUND have no side effect on any state; a response is all they leave. -/
def Obligations.QueriesChangeNoState : Prop :=
  ∀ (i : Instr) (s t : State),
    ((∃ name, i = .resolve name) ∨ (∃ e, i = .rdstate e) ∨ ∃ a b c d, i = .qround a b c d) →
    exec i s = .next t → ∃ r, t = { s with outbox := s.outbox ++ [r] }

/-- R22, R23, R160: no command but CREATE changes the constant words, the key words or the method id of a slot that holds an
engine before and after it. -/
def Obligations.KeyIsImmutable : Prop :=
  ∀ (i : Instr) (s t : State) (e : SlotIndex) (a b : Slot),
    exec i s = .next t → (∀ m key nonce, i ≠ .create e m key nonce) →
    s.slot? e = some a → t.slot? e = some b → a.phase ≠ .uninit → b.phase ≠ .uninit →
    b.mid = a.mid ∧ ∀ k : Fin 12, b.st[k.val] = a.st[k.val]

/-- R206, R200: the statuses a command may report, an error always with an empty payload. -/
def Obligations.StatusesByCommand : Prop :=
  ∀ (i : Instr) (s t : State), exec i s = .next t →
    ∃ st q, st ∈ statusesOf i ∧ t.outbox = s.outbox ++ [responseOf st q] ∧ (st ≠ .ok → q = [])

/-- R143: the phase of the addressed slot after a command, by the phase before it and whether the command answered OK. -/
def Obligations.PhaseFollowsTheLifecycle : Prop :=
  ∀ (i : Instr) (s t : State) (e : SlotIndex) (sl : Slot),
    i.slot? = some e → s.slot? e = some sl → exec i s = .next t →
    ∃ sl' r, t.slot? e = some sl' ∧ t.outbox = s.outbox ++ [r] ∧
      sl'.phase = phaseAfter i (statusField r.status == 0) sl.phase

/-- R222: two commands that address no slot in common commute: the same responses and the same final state in either order. -/
def Obligations.CommandsToDifferentSlotsCommute : Prop :=
  ∀ (i j : Instr) (s t u : State),
    (∀ e, i.slot? = some e → j.slot? ≠ some e) → exec i s = .next t → exec j t = .next u →
    ∃ t' u' ri rj, exec j s = .next t' ∧ exec i t' = .next u' ∧
      u.outbox = s.outbox ++ [ri, rj] ∧ u'.outbox = s.outbox ++ [rj, ri] ∧
      u'.slots = u.slots ∧ u'.registry = u.registry ∧ u'.debugEn = u.debugEn ∧ u'.inbox = u.inbox

/-- R37, R233: what an UNINIT slot holds is unreachable: two states that agree in all but that stop alike or step to states that
agree in all but that again, with the same responses. So nothing observable rests on the reset values of log entry 5. -/
def Obligations.EmptySlotContentsAreUnobservable : Prop :=
  ∀ s s' : State, StateAgrees s s' →
    (∃ t t', step s = .next t ∧ step s' = .next t' ∧ StateAgrees t t') ∨
    ∃ r, step s = .refused r ∧ step s' = .refused r

/-- R26, R58: the response to any command but UPDATE is the same whatever state words 0 to 11 and buffer bytes the slot holds. -/
def Obligations.KeyIsNeverReported : Prop :=
  ∀ (i : Instr) (s t : State) (e : SlotIndex) (a b : Slot),
    (∀ e' data, i ≠ .update e' data) → SlotReportAgrees a b → exec i (s.setSlot e a) = .next t →
    ∃ t', exec i (s.setSlot e b) = .next t' ∧ t'.outbox = t.outbox

/-- A command to a slot at or above N_ENGINES, or a test-access command without DEBUG_EN, given to exec as a term answers
ERR_ILLEGAL_COMMAND and changes nothing, as its header does at the port (R79 (b), (e); log entry 11). -/
def Obligations.UnadmittedCommandIsIllegal : Prop :=
  ∀ (i : Instr) (s : State), i.allowed s.config = false →
    exec i s = .next { s with outbox := s.outbox ++ [⟨0x00000004, []⟩] }

/-! Words, the quarter round, the block function. -/

/-- R50, R51: bytes to words and words to bytes, little-endian. -/
def Obligations.PackingIsLittleEndian : Prop :=
  (∀ b0 b1 b2 b3 : Byte,
    (le32 b0 b1 b2 b3).toNat = b0.toNat + 2 ^ 8 * b1.toNat + 2 ^ 16 * b2.toNat + 2 ^ 24 * b3.toNat) ∧
  ∀ w : Word,
    (bytesLe32 w).map BitVec.toNat
      = [w.toNat % 256, w.toNat / 2 ^ 8 % 256, w.toNat / 2 ^ 16 % 256, w.toNat / 2 ^ 24]

/-- R100, R101, R102: addition modulo 2^32, bitwise exclusive-or, and the rotation that takes bit i to bit (i + n) mod 32. -/
def Obligations.WordOperationsAreModularAndBitwise : Prop :=
  (∀ a b : Word, (add32 a b).toNat = (a.toNat + b.toNat) % 2 ^ 32) ∧
  (∀ (a b : Word) (i : Nat), (xor32 a b).getLsbD i = (a.getLsbD i != b.getLsbD i)) ∧
  ∀ (v : Word) (n i : Nat), 0 < n → n < 32 → i < 32 → (rotl32 v n).getLsbD ((i + n) % 32) = v.getLsbD i

/-- R103: the twelve steps of QR in their order. -/
def Obligations.QuarterRoundRunsTwelveSteps : Prop :=
  ∀ a b c d : Word,
    ∃ a1 d2 d3 c4 b5 b6 a7 d8 d9 c10 b11 b12 : Word,
      a1 = add32 a b ∧ d2 = xor32 d a1 ∧ d3 = rotl32 d2 16 ∧
      c4 = add32 c d3 ∧ b5 = xor32 b c4 ∧ b6 = rotl32 b5 12 ∧
      a7 = add32 a1 b6 ∧ d8 = xor32 d3 a7 ∧ d9 = rotl32 d8 8 ∧
      c10 = add32 c4 d9 ∧ b11 = xor32 b6 c10 ∧ b12 = rotl32 b11 7 ∧
      quarterRound a b c d = (a7, b12, c10, d9)

/-- R104 (c): QR is a bijection on 4-tuples of words. -/
def Obligations.QuarterRoundIsBijective : Prop :=
  Function.Bijective fun x : Word × Word × Word × Word => quarterRound x.1 x.2.1 x.2.2.1 x.2.2.2

/-- R83: the schedule is its closed form, row by row. -/
def Obligations.ScheduleIsItsClosedForm : Prop :=
  columnGroups.length = 4 ∧ diagonalGroups.length = 4 ∧
  ∀ t : Fin 4,
    (columnGroups[t.val]?).map (fun g => (g.1.val, g.2.1.val, g.2.2.1.val, g.2.2.2.val))
      = some (t.val, 4 + t.val, 8 + t.val, 12 + t.val) ∧
    (diagonalGroups[t.val]?).map (fun g => (g.1.val, g.2.1.val, g.2.2.1.val, g.2.2.2.val))
      = some (t.val, 4 + (t.val + 1) % 4, 8 + (t.val + 2) % 4, 12 + (t.val + 3) % 4)

/-- R123, R124: a schedule step overwrites the four registers of its group with QR of them and no other; a double round is the
four column steps, then the four diagonal steps; PERMUTE is ten double rounds. -/
def Obligations.PermuteRunsTheSchedule : Prop :=
  (∀ (x : Vector Word 16) (g : RegGroup), g ∈ columnGroups ++ diagonalGroups →
    ((quarterRoundAt x g)[g.1], (quarterRoundAt x g)[g.2.1], (quarterRoundAt x g)[g.2.2.1], (quarterRoundAt x g)[g.2.2.2])
      = quarterRound x[g.1] x[g.2.1] x[g.2.2.1] x[g.2.2.2] ∧
    ∀ i : Fin 16, i ≠ g.1 → i ≠ g.2.1 → i ≠ g.2.2.1 → i ≠ g.2.2.2 → (quarterRoundAt x g)[i] = x[i]) ∧
  (∀ x : Vector Word 16, doubleRound x = (columnGroups ++ diagonalGroups).foldl quarterRoundAt x) ∧
  ∀ x : Vector Word 16, permute x = doubleRound^[10] x

/-- R125: the four QRs of a half may run in any order. -/
def Obligations.LanesOfAHalfCommute : Prop :=
  ∀ (x : Vector Word 16) (l : List RegGroup),
    (l.Perm columnGroups → l.foldl quarterRoundAt x = columnGroups.foldl quarterRoundAt x) ∧
    (l.Perm diagonalGroups → l.foldl quarterRoundAt x = diagonalGroups.foldl quarterRoundAt x)

/-- R126, R127: keystream byte j is byte j mod 4 of the permuted word j / 4 plus the original state word. -/
def Obligations.KeystreamBlockIsTheSerializedSum : Prop :=
  ∀ (st : Vector Word 16) (j : Nat) (hj : j < 64),
    ((keystreamBlock st)[j]).toNat
      = ((permute st)[j / 4].toNat + st[j / 4].toNat) % 2 ^ 32 / 2 ^ (8 * (j % 4)) % 256

/-- R130: CTRINC: word 12 plus one, the carry into word 13 where word 12 becomes 0, no carry further; as numbers, the pair of
words 12 and 13 counts modulo 2^64. -/
def Obligations.CounterIncrementCarriesIntoWord13 : Prop :=
  ∀ st : Vector Word 16,
    (counterIncrement st)[12] = st[12] + 1 ∧
    (counterIncrement st)[13] = (if (counterIncrement st)[12] = 0 then st[13] + 1 else st[13]) ∧
    (∀ i : Fin 16, i.val ≠ 12 → i.val ≠ 13 → (counterIncrement st)[i.val] = st[i.val]) ∧
    (counterIncrement st)[12].toNat + 2 ^ 32 * (counterIncrement st)[13].toNat
      = (st[12].toNat + 2 ^ 32 * st[13].toNat + 1) % 2 ^ 64

/-- The counter law (R40): after g increments words 12 and 13 count g further modulo 2^64, word 12 alone g further modulo 2^32,
and the other words are as before. -/
def Obligations.CounterCountsBlocks : Prop :=
  ∀ (g : Nat) (st : Vector Word 16),
    (counterAfter g st)[12].toNat + 2 ^ 32 * (counterAfter g st)[13].toNat
      = (st[12].toNat + 2 ^ 32 * st[13].toNat + g) % 2 ^ 64 ∧
    (counterAfter g st)[12].toNat = (st[12].toNat + g) % 2 ^ 32 ∧
    ∀ i : Fin 16, i.val ≠ 12 → i.val ≠ 13 → (counterAfter g st)[i.val] = st[i.val]

/-- R242: after 2^64 blocks (and any multiple of it) the words are those of the start, and the keystream repeats. -/
def Obligations.ClassicCounterWraps : Prop :=
  ∀ (st : Vector Word 16) (n : Nat), n % 2 ^ 64 = 0 →
    counterAfter n st = st ∧ ∀ p : Nat, keystreamByte st (p + 64 * n) = keystreamByte st p

/-- The hazard of R241: block g of a stream that starts at counter 0 uses word 13 as given while g is below 2^32, and block 2^32
uses word 12 = 0 again with word 13 one higher. -/
def Obligations.CarryReachesTheNonceWord : Prop :=
  ∀ s1 : Vector Word 16, s1[12] = 0 →
    (∀ g : Nat, g < 2 ^ 32 → (counterAfter g s1)[13] = s1[13]) ∧
    (counterAfter (2 ^ 32) s1)[12] = 0 ∧ (counterAfter (2 ^ 32) s1)[13] = s1[13] + 1

/-- R129, R131: BLOCK fills the buffer from the words as they stand, then advances the counter and resets the cursor; words
0-11, 14 and 15, the phase and the method id are not written. -/
def Obligations.BlockRefillsAndAdvances : Prop :=
  ∀ sl : Slot,
    (block sl).buf = keystreamBlock sl.st ∧ (block sl).cur = 0 ∧
    (block sl).st[12] = sl.st[12] + 1 ∧
    (block sl).st[13] = (if sl.st[12] + 1 = 0 then sl.st[13] + 1 else sl.st[13]) ∧
    (∀ i : Fin 16, i.val ≠ 12 → i.val ≠ 13 → (block sl).st[i.val] = sl.st[i.val]) ∧
    (block sl).phase = sl.phase ∧ (block sl).mid = sl.mid

/-- The zero key and nonce give the keystream the spec derives (95_test_vectors.md V20). It rests on SIGMA, which R22 marks as
general knowledge (log entry 14). -/
def Obligations.ZeroKeystreamIsTheKnownVector : Prop :=
  (keystreamBlock (streamStart (List.replicate 32 0) (List.replicate 12 0))).toList =
    [0x76, 0xb8, 0xe0, 0xad, 0xa0, 0xf1, 0x3d, 0x90, 0x40, 0x5d, 0x6a, 0xe5, 0x53, 0x86, 0xbd, 0x28,
     0xbd, 0xd2, 0x19, 0xb8, 0xa0, 0x8d, 0xed, 0x1a, 0xa8, 0x36, 0xef, 0xcc, 0x8b, 0x77, 0x0d, 0xc7,
     0xda, 0x41, 0x59, 0x7c, 0x51, 0x57, 0x48, 0x8d, 0x77, 0x24, 0xe0, 0x3f, 0xb8, 0xd8, 0x4a, 0x37,
     0x6a, 0x43, 0xb8, 0xf4, 0x15, 0x18, 0xa1, 0x1c, 0xc3, 0x87, 0xb6, 0x69, 0xb2, 0xee, 0x65, 0x86]

/-! CREATE, SETIV, DESTROY. -/

/-- R140, R141: the words STATEINIT and SETNONCE leave, whatever the words were: SIGMA, the key in words 4-11, counter 0, and the
nonce in the layout of its length. -/
def Obligations.KeyAndNonceFillTheWords : Prop :=
  ∀ (st : Vector Word 16) (key nonce : List Byte), key.length = 32 → (nonce.length = 8 ∨ nonce.length = 12) →
    (∀ i : Fin 4, (setNonce (stateInit st key) nonce)[i.val] = sigma[i.val]) ∧
    (∀ i : Fin 8, (setNonce (stateInit st key) nonce)[4 + i.val]
      = le32 (key.getD (4 * i.val) 0) (key.getD (4 * i.val + 1) 0) (key.getD (4 * i.val + 2) 0)
          (key.getD (4 * i.val + 3) 0)) ∧
    (setNonce (stateInit st key) nonce)[12] = 0 ∧
    (nonce.length = 8 →
      (setNonce (stateInit st key) nonce)[13] = 0 ∧
      (setNonce (stateInit st key) nonce)[14]
        = le32 (nonce.getD 0 0) (nonce.getD 1 0) (nonce.getD 2 0) (nonce.getD 3 0) ∧
      (setNonce (stateInit st key) nonce)[15]
        = le32 (nonce.getD 4 0) (nonce.getD 5 0) (nonce.getD 6 0) (nonce.getD 7 0)) ∧
    (nonce.length = 12 →
      (setNonce (stateInit st key) nonce)[13]
        = le32 (nonce.getD 0 0) (nonce.getD 1 0) (nonce.getD 2 0) (nonce.getD 3 0) ∧
      (setNonce (stateInit st key) nonce)[14]
        = le32 (nonce.getD 4 0) (nonce.getD 5 0) (nonce.getD 6 0) (nonce.getD 7 0) ∧
      (setNonce (stateInit st key) nonce)[15]
        = le32 (nonce.getD 8 0) (nonce.getD 9 0) (nonce.getD 10 0) (nonce.getD 11 0))

/-- R144, R145, R146: CREATE. An unknown method, or else a key or nonce of a wrong length, is answered with its error and leaves
the slot UNINIT; otherwise the slot holds an engine made from the operands alone, prefilled, with the counter advanced once. No
other slot changes. -/
def Obligations.CreateConstructsOrEmptiesTheSlot : Prop :=
  ∀ (s : State) (e : SlotIndex) (sl : Slot) (m : MethodId) (key nonce : List Byte), s.slot? e = some sl →
    (lookupId s.registry m = none →
      ∃ t sl', exec (.create e m key nonce) s = .next t ∧ OnlySlotChanged e s t ∧
        t.outbox = s.outbox ++ [⟨0x00000002, []⟩] ∧ t.slot? e = some sl' ∧ sl'.phase = .uninit) ∧
    ∀ d, lookupId s.registry m = some d →
      (key.length ≠ d.keyLen.toNat ∨ (nonce.length ≠ 8 ∧ nonce.length ≠ 12) →
        ∃ t sl', exec (.create e m key nonce) s = .next t ∧ OnlySlotChanged e s t ∧
          t.outbox = s.outbox ++ [⟨0x00000001, []⟩] ∧ t.slot? e = some sl' ∧ sl'.phase = .uninit) ∧
      (key.length = d.keyLen.toNat → key.length = 32 → (nonce.length = 8 ∨ nonce.length = 12) →
        ∃ t sl', exec (.create e m key nonce) s = .next t ∧ OnlySlotChanged e s t ∧
          t.outbox = s.outbox ++ [⟨0x00000000, []⟩] ∧ t.slot? e = some sl' ∧
          sl'.phase = .init ∧ sl'.mid = m ∧ sl'.cur = 0 ∧
          sl'.st = counterIncrement (streamStart key nonce) ∧ sl'.buf = keystreamBlock (streamStart key nonce))

/-- R157, R31: a successful CREATE and a successful SETIV put the slot at position 0 of its keystream. -/
def Obligations.CreateAndSetivStartAtPositionZero : Prop :=
  (∀ (s : State) (e : SlotIndex) (sl : Slot) (m : MethodId) (d : Descriptor) (key nonce : List Byte),
    s.slot? e = some sl → lookupId s.registry m = some d → key.length = d.keyLen.toNat → key.length = 32 →
    (nonce.length = 8 ∨ nonce.length = 12) →
    ∃ t sl', exec (.create e m key nonce) s = .next t ∧ t.slot? e = some sl' ∧
      StreamAt (streamStart key nonce) 0 sl') ∧
  ∀ (s : State) (e : SlotIndex) (sl : Slot) (nonce : List Byte),
    s.slot? e = some sl → sl.phase ≠ .uninit → (nonce.length = 8 ∨ nonce.length = 12) →
    ∃ t sl', exec (.setiv e nonce) s = .next t ∧ t.slot? e = some sl' ∧ StreamAt (setNonce sl.st nonce) 0 sl'

/-- R160, R161: SETIV on an engine. A nonce of 8 or 12 bytes restarts the slot with the same key and method, the buffer
regenerated and the counter advanced once; any other length is answered with ERR_INVALID_PARAMETER and leaves the slot UNINIT. -/
def Obligations.SetivRekeysOrEmptiesTheSlot : Prop :=
  ∀ (s : State) (e : SlotIndex) (sl : Slot) (nonce : List Byte), s.slot? e = some sl → sl.phase ≠ .uninit →
    ((nonce.length = 8 ∨ nonce.length = 12) →
      ∃ t sl', exec (.setiv e nonce) s = .next t ∧ OnlySlotChanged e s t ∧
        t.outbox = s.outbox ++ [⟨0x00000000, []⟩] ∧ t.slot? e = some sl' ∧
        sl'.phase = .init ∧ sl'.mid = sl.mid ∧ sl'.cur = 0 ∧
        sl'.st = counterIncrement (setNonce sl.st nonce) ∧ sl'.buf = keystreamBlock (setNonce sl.st nonce) ∧
        ∀ k : Fin 12, sl'.st[k.val] = sl.st[k.val]) ∧
    (nonce.length ≠ 8 ∧ nonce.length ≠ 12 →
      ∃ t sl', exec (.setiv e nonce) s = .next t ∧ OnlySlotChanged e s t ∧
        t.outbox = s.outbox ++ [⟨0x00000001, []⟩] ∧ t.slot? e = some sl' ∧ sl'.phase = .uninit)

/-- R162: after a SETIV with nonce n on a slot whose key is K, the words, buffer and cursor are those of a slot, in this unit or
another, on which CREATE with K and n has just succeeded. -/
def Obligations.ResyncEqualsAFreshEngine : Prop :=
  ∀ (s s' : State) (e e' : SlotIndex) (sl sl0 : Slot) (m : MethodId) (d : Descriptor) (key nonce : List Byte),
    s.slot? e = some sl → sl.phase ≠ .uninit →
    (∀ k : Fin 12, sl.st[k.val] = (streamStart key nonce)[k.val]) →
    (nonce.length = 8 ∨ nonce.length = 12) →
    s'.slot? e' = some sl0 → lookupId s'.registry m = some d → key.length = d.keyLen.toNat → key.length = 32 →
    ∃ t t' a b, exec (.setiv e nonce) s = .next t ∧ exec (.create e' m key nonce) s' = .next t' ∧
      t.slot? e = some a ∧ t'.slot? e' = some b ∧ a.st = b.st ∧ a.buf = b.buf ∧ a.cur = b.cur

/-- R165: DESTROY leaves the slot UNINIT and answers OK; on an UNINIT slot it changes nothing. -/
def Obligations.DestroyEmptiesTheSlot : Prop :=
  ∀ (s : State) (e : SlotIndex) (sl : Slot), s.slot? e = some sl →
    ∃ t sl', exec (.destroy e) s = .next t ∧ OnlySlotChanged e s t ∧
      t.outbox = s.outbox ++ [⟨0x00000000, []⟩] ∧ t.slot? e = some sl' ∧ sl'.phase = .uninit ∧
      (sl.phase = .uninit → sl' = sl)

/-- R204: UPDATE, SETIV, RDSTATE and WRCTR on an UNINIT slot answer ERR_NO_ENGINE and change nothing. -/
def Obligations.EmptySlotAnswersNoEngine : Prop :=
  ∀ (s : State) (e : SlotIndex) (sl : Slot), s.slot? e = some sl → sl.phase = .uninit →
    (∀ data, exec (.update e data) s = .next { s with outbox := s.outbox ++ [⟨0x00000003, []⟩] }) ∧
    (∀ nonce, exec (.setiv e nonce) s = .next { s with outbox := s.outbox ++ [⟨0x00000003, []⟩] }) ∧
    (s.debugEn = true → exec (.rdstate e) s = .next { s with outbox := s.outbox ++ [⟨0x00000003, []⟩] }) ∧
    (s.debugEn = true → ∀ lo hi,
      exec (.wrctr e lo hi) s = .next { s with outbox := s.outbox ++ [⟨0x00000003, []⟩] })

/-! UPDATE. -/

/-- R152: with c the cursor and n the input's length, UPDATE refills r = (c + n) / 64 times: the counter is advanced r times, the
cursor ends at (c + n) mod 64, and the buffer holds the last block. Nothing else of the slot but the phase changes. -/
def Obligations.UpdateRefillsAndMovesTheCursor : Prop :=
  ∀ (s : State) (e : SlotIndex) (sl : Slot) (data : List Byte), s.slot? e = some sl → sl.phase ≠ .uninit →
    ∃ t sl', exec (.update e data) s = .next t ∧ OnlySlotChanged e s t ∧ t.slot? e = some sl' ∧
      sl'.phase = .stream ∧ sl'.mid = sl.mid ∧
      sl'.cur.val = (sl.cur.val + data.length) % 64 ∧
      sl'.st = counterAfter ((sl.cur.val + data.length) / 64) sl.st ∧
      sl'.buf = (if (sl.cur.val + data.length) / 64 = 0 then sl.buf
        else keystreamBlock (counterAfter ((sl.cur.val + data.length) / 64 - 1) sl.st))

/-- R150, byte by byte: the output has the input's length, and its byte i is input byte i XOR the buffer byte at cursor + i, or,
past the buffer's end, the byte of the block that the refills before it wrote. -/
def Obligations.UpdateXorsBufferThenBlocks : Prop :=
  ∀ (s : State) (e : SlotIndex) (sl : Slot) (data : List Byte), s.slot? e = some sl → sl.phase ≠ .uninit →
    ∃ t out, exec (.update e data) s = .next t ∧ t.outbox = s.outbox ++ [responseOf .ok out] ∧
      out.length = data.length ∧
      ∀ i : Nat, i < data.length →
        out.getD i 0 = data.getD i 0 ^^^
          bufferByte (if sl.cur.val + i < 64 then sl.buf
            else keystreamBlock (counterAfter ((sl.cur.val + i) / 64 - 1) sl.st)) (sl.cur.val + i)

/-- R154: from position pos of a keystream, UPDATEs of any chunks return the input XOR the keystream from pos on, and leave the
slot at pos plus the number of bytes. -/
def Obligations.UpdatesFollowTheKeystream : Prop :=
  ∀ (s1 : Vector Word 16) (pos : Nat) (s : State) (e : SlotIndex) (sl : Slot) (chunks : List (List Byte)),
    s.slot? e = some sl → sl.phase ≠ .uninit → StreamAt s1 pos sl →
    ∃ t out sl', runUpdates e chunks s = some (t, out) ∧ t.slot? e = some sl' ∧
      StreamAt s1 (pos + chunks.flatten.length) sl' ∧ out.length = chunks.flatten.length ∧
      ∀ i : Nat, i < chunks.flatten.length →
        out.getD i 0 = chunks.flatten.getD i 0 ^^^ keystreamByte s1 (pos + i)

/-- Chunk invariance on every slot that holds an engine (R154, without its premise on the keystream position): UPDATEs of the
parts and one UPDATE of the whole give the same bytes and leave the same slots. -/
def Obligations.ChunkingIsInvisible : Prop :=
  ∀ (s : State) (e : SlotIndex) (sl : Slot) (chunks : List (List Byte)),
    s.slot? e = some sl → sl.phase ≠ .uninit → chunks ≠ [] →
    ∃ t out u, runUpdates e chunks s = some (t, out) ∧ exec (.update e chunks.flatten) s = .next u ∧
      t.slots = u.slots ∧ u.outbox = s.outbox ++ [responseOf .ok out]

/-- R155: two slots at the same position of the same keystream, in one unit or two: what the second returns for the first's output,
chunked in any way, is the first's input. -/
def Obligations.DecryptionInvertsEncryption : Prop :=
  ∀ (s1 : Vector Word 16) (pos : Nat) (s s' : State) (e e' : SlotIndex) (a b : Slot) (xs ys : List (List Byte))
    (t : State) (y : List Byte),
    s.slot? e = some a → a.phase ≠ .uninit → StreamAt s1 pos a →
    s'.slot? e' = some b → b.phase ≠ .uninit → StreamAt s1 pos b →
    runUpdates e xs s = some (t, y) → ys.flatten = y →
    ∃ t', runUpdates e' ys s' = some (t', xs.flatten)

/-- R156: an empty UPDATE with the cursor in 0 to 63 changes nothing of the slot but the phase, and answers OK and no bytes. -/
def Obligations.EmptyUpdateOnlyMarksTheSlot : Prop :=
  ∀ (s : State) (e : SlotIndex) (sl : Slot), s.slot? e = some sl → sl.phase ≠ .uninit → sl.cur.val ≤ 63 →
    exec (.update e []) s
      = .next { s with slots := s.slots.set e.toNat { sl with phase := .stream },
                       outbox := s.outbox ++ [⟨0x00000000, []⟩] }

/-- R28, R151: buffer bytes below the cursor are never read: two slots that differ in no other way give the same responses, and
end with the same words and cursor. -/
def Obligations.ConsumedBytesAreNeverRead : Prop :=
  ∀ (s : State) (e : SlotIndex) (a b : Slot) (data : List Byte), (s.slot? e).isSome = true →
    a.phase ≠ .uninit → b.phase = a.phase → b.mid = a.mid → b.st = a.st → b.cur = a.cur →
    (∀ j : Fin 64, a.cur.val ≤ j.val → b.buf[j.val] = a.buf[j.val]) →
    ∃ t t' a' b', exec (.update e data) (s.setSlot e a) = .next t ∧ exec (.update e data) (s.setSlot e b) = .next t' ∧
      t'.outbox = t.outbox ∧ t.slot? e = some a' ∧ t'.slot? e = some b' ∧ b'.st = a'.st ∧ b'.cur = a'.cur

/-! Test access and the registry. -/

/-- R186: RDSTATE returns phase, mid, cur, 0 and words 12 to 15, each little-endian, and changes nothing. -/
def Obligations.RdstateReportsTheSlot : Prop :=
  ∀ (s : State) (e : SlotIndex) (sl : Slot), s.debugEn = true → s.slot? e = some sl → sl.phase ≠ .uninit →
    exec (.rdstate e) s = .next { s with outbox := s.outbox ++ [⟨0x00140000,
      [if sl.phase = .init then 1 else 2, sl.mid, BitVec.ofNat 8 sl.cur.val, 0]
        ++ bytesLe32 sl.st[12] ++ bytesLe32 sl.st[13] ++ bytesLe32 sl.st[14] ++ bytesLe32 sl.st[15]⟩] }

/-- R188: WRCTR writes words 12 and 13 and nothing else. -/
def Obligations.WrctrWritesTheCounterOnly : Prop :=
  ∀ (s : State) (e : SlotIndex) (sl : Slot) (lo hi : Word),
    s.debugEn = true → s.slot? e = some sl → sl.phase ≠ .uninit →
    exec (.wrctr e lo hi) s
      = .next { s with slots := s.slots.set e.toNat { sl with st := (sl.st.set 12 lo).set 13 hi },
                       outbox := s.outbox ++ [⟨0x00000000, []⟩] }

/-- R188 corner case (a): bytes already in the buffer are consumed first; the new counter takes effect at the next refill. -/
def Obligations.WrctrTakesEffectAtTheNextRefill : Prop :=
  ∀ (s t : State) (e : SlotIndex) (sl : Slot) (lo hi : Word) (data : List Byte),
    s.debugEn = true → s.slot? e = some sl → sl.phase ≠ .uninit →
    exec (.wrctr e lo hi) s = .next t → data.length = 64 - sl.cur.val →
    ∃ u sl', exec (.update e data) t = .next u ∧
      u.outbox = t.outbox ++ [responseOf .ok (List.zipWith xorLane data (unreadBytes sl))] ∧
      u.slot? e = some sl' ∧ sl'.buf = keystreamBlock ((sl.st.set 12 lo).set 13 hi) ∧
      sl'.st = counterIncrement ((sl.st.set 12 lo).set 13 hi) ∧ sl'.cur = 0

/-- R190: QROUND returns QR of its operands, each word little-endian, and touches no slot. -/
def Obligations.QroundReturnsTheQuarterRound : Prop :=
  ∀ (s : State) (a b c d a' b' c' d' : Word), s.debugEn = true → quarterRound a b c d = (a', b', c', d') →
    exec (.qround a b c d) s = .next { s with outbox := s.outbox ++ [⟨0x00100000,
      bytesLe32 a' ++ bytesLe32 b' ++ bytesLe32 c' ++ bytesLe32 d'⟩] }

/-- R173, R175: RESOLVE answers the id and lengths of the descriptor with the name, or ERR_UNSUPPORTED_METHOD, and changes
nothing. -/
def Obligations.ResolveAnswersFromTheRegistry : Prop :=
  ∀ (s : State) (name : List Byte),
    (lookupName s.registry name = none →
      exec (.resolve name) s = .next { s with outbox := s.outbox ++ [⟨0x00000002, []⟩] }) ∧
    ∀ d, lookupName s.registry name = some d →
      exec (.resolve name) s
        = .next { s with outbox := s.outbox ++ [⟨0x00030000, [d.id, d.keyLen, d.nonceLen]⟩] }

/-- R174, and the lookup of R177: in a registry R170 allows, a lookup finds exactly the descriptor with the name or the id, and the
empty name finds nothing. -/
def Obligations.LookupsFindExactlyTheDescriptor : Prop :=
  ∀ r : List Descriptor, registryLegal r = true →
    (∀ (name : List Byte) (d : Descriptor), lookupName r name = some d ↔ d ∈ r ∧ d.name = name) ∧
    (∀ (m : MethodId) (d : Descriptor), lookupId r m = some d ↔ d ∈ r ∧ d.id = m) ∧
    lookupName r [] = none

/-- The default registry (R171; its names are marked as general knowledge, log entry 14): the answers of V40. -/
def Obligations.DefaultRegistryAnswers : Prop :=
  exec (.resolve [0x63, 0x68, 0x61, 0x63, 0x68, 0x61, 0x32, 0x30]) State.reset
    = .next { State.reset with outbox := [⟨0x00030000, [0x00, 0x20, 0x08]⟩] } ∧
  exec (.resolve [0x63, 0x68, 0x61, 0x63, 0x68, 0x61, 0x32, 0x30, 0x2d, 0x69, 0x65, 0x74, 0x66]) State.reset
    = .next { State.reset with outbox := [⟨0x00030000, [0x01, 0x20, 0x0c]⟩] } ∧
  exec (.resolve [0x43, 0x68, 0x61, 0x43, 0x68, 0x61, 0x32, 0x30]) State.reset
    = .next { State.reset with outbox := [⟨0x00000002, []⟩] } ∧
  ∀ m : MethodId, 2 ≤ m.toNat → lookupId State.reset.registry m = none
end

