-- ==== Sys2Proof/Laws/Block.lean ====
section
/-! SUPPORT. Laws of one schedule step (R105, R123): what it writes, what it leaves, and that steps on disjoint groups commute. -/

namespace Sys2Proof.Machine

/-- The four registers of a group are four registers. -/
def GroupDistinct (g : RegGroup) : Prop :=
  g.1 ≠ g.2.1 ∧ g.1 ≠ g.2.2.1 ∧ g.1 ≠ g.2.2.2 ∧ g.2.1 ≠ g.2.2.1 ∧ g.2.1 ≠ g.2.2.2 ∧ g.2.2.1 ≠ g.2.2.2

/-- A register is in a group. -/
def GroupHas (g : RegGroup) (i : Fin 16) : Prop := i = g.1 ∨ i = g.2.1 ∨ i = g.2.2.1 ∨ i = g.2.2.2

theorem quarterRoundAt_other (x : Vector Word 16) (g : RegGroup) (i : Fin 16) (h : ¬ GroupHas g i) :
    (quarterRoundAt x g)[i] = x[i] := by
  obtain ⟨ia, ib, ic, id⟩ := g
  simp only [GroupHas, not_or] at h
  obtain ⟨ha, hb, hc, hd⟩ := h
  have ha' : ia.val ≠ i.val := fun h => ha (Fin.ext h.symm)
  have hb' : ib.val ≠ i.val := fun h => hb (Fin.ext h.symm)
  have hc' : ic.val ≠ i.val := fun h => hc (Fin.ext h.symm)
  have hd' : id.val ≠ i.val := fun h => hd (Fin.ext h.symm)
  simp [quarterRoundAt, ha', hb', hc', hd']

theorem quarterRoundAt_group (x : Vector Word 16) (g : RegGroup) (h : GroupDistinct g) :
    (quarterRoundAt x g)[g.1] = (quarterRound x[g.1] x[g.2.1] x[g.2.2.1] x[g.2.2.2]).1 ∧
    (quarterRoundAt x g)[g.2.1] = (quarterRound x[g.1] x[g.2.1] x[g.2.2.1] x[g.2.2.2]).2.1 ∧
    (quarterRoundAt x g)[g.2.2.1] = (quarterRound x[g.1] x[g.2.1] x[g.2.2.1] x[g.2.2.2]).2.2.1 ∧
    (quarterRoundAt x g)[g.2.2.2] = (quarterRound x[g.1] x[g.2.1] x[g.2.2.1] x[g.2.2.2]).2.2.2 := by
  obtain ⟨ia, ib, ic, id⟩ := g
  obtain ⟨hab, hac, had, hbc, hbd, hcd⟩ := h
  simp only [ne_eq, Fin.ext_iff] at hab hac had hbc hbd hcd
  simp [quarterRoundAt, Ne.symm hab, Ne.symm hac, Ne.symm had, Ne.symm hbc, Ne.symm hbd, Ne.symm hcd]

/-- Steps on disjoint groups commute (R125). -/
theorem quarterRoundAt_comm (x : Vector Word 16) (g h : RegGroup) (hg : GroupDistinct g) (hh : GroupDistinct h)
    (hd : ∀ i, GroupHas g i → ¬ GroupHas h i) :
    quarterRoundAt (quarterRoundAt x g) h = quarterRoundAt (quarterRoundAt x h) g := by
  have hd' : ∀ i, GroupHas h i → ¬ GroupHas g i := fun i hi hi' => hd i hi' hi
  have ing : ∀ y, ∀ i, GroupHas h i → (quarterRoundAt y g)[i] = y[i] := fun y i hi => quarterRoundAt_other y g i (hd' i hi)
  have inh : ∀ y, ∀ i, GroupHas g i → (quarterRoundAt y h)[i] = y[i] := fun y i hi => quarterRoundAt_other y h i (hd i hi)
  have g1 : GroupHas g g.1 := .inl rfl
  have g2 : GroupHas g g.2.1 := .inr (.inl rfl)
  have g3 : GroupHas g g.2.2.1 := .inr (.inr (.inl rfl))
  have g4 : GroupHas g g.2.2.2 := .inr (.inr (.inr rfl))
  have h1 : GroupHas h h.1 := .inl rfl
  have h2 : GroupHas h h.2.1 := .inr (.inl rfl)
  have h3 : GroupHas h h.2.2.1 := .inr (.inr (.inl rfl))
  have h4 : GroupHas h h.2.2.2 := .inr (.inr (.inr rfl))
  have ghg := quarterRoundAt_group x g hg
  have ghg' := quarterRoundAt_group (quarterRoundAt x h) g hg
  have ghh := quarterRoundAt_group x h hh
  have ghh' := quarterRoundAt_group (quarterRoundAt x g) h hh
  rw [inh x _ g1, inh x _ g2, inh x _ g3, inh x _ g4] at ghg'
  rw [ing x _ h1, ing x _ h2, ing x _ h3, ing x _ h4] at ghh'
  have key : ∀ i : Fin 16, (quarterRoundAt (quarterRoundAt x g) h)[i] = (quarterRoundAt (quarterRoundAt x h) g)[i] := by
    intro i
    by_cases hi : GroupHas g i
    · rw [inh _ i hi]
      obtain rfl | rfl | rfl | rfl := hi
      · rw [ghg.1, ghg'.1]
      · rw [ghg.2.1, ghg'.2.1]
      · rw [ghg.2.2.1, ghg'.2.2.1]
      · rw [ghg.2.2.2, ghg'.2.2.2]
    · rw [quarterRoundAt_other _ g i hi]
      by_cases hi' : GroupHas h i
      · obtain rfl | rfl | rfl | rfl := hi'
        · rw [ghh.1, ghh'.1]
        · rw [ghh.2.1, ghh'.2.1]
        · rw [ghh.2.2.1, ghh'.2.2.1]
        · rw [ghh.2.2.2, ghh'.2.2.2]
      · rw [quarterRoundAt_other _ h i hi', quarterRoundAt_other _ h i hi', quarterRoundAt_other _ g i hi]
  exact Vector.ext fun i hi => key ⟨i, hi⟩

end Sys2Proof.Machine
end

