-- ==== Sys2Proof/Laws/Decode.lean ====
section
/-! SUPPORT. Laws of the header word: its fields as numbers (R71, R75), the fields of a header built by headerOf, the payload
length of an encoded instruction (R73), and words through their bytes (R50, R51). -/

namespace Sys2Proof

open Sys2Proof.Machine

/-! The fields as numbers. -/

theorem headerOp_toNat (h : BitVec 32) : (headerOp h).toNat = h.toNat / 2 ^ 28 := by
  simp [headerOp, BitVec.extractLsb'_toNat, Nat.shiftRight_eq_div_pow]; omega

theorem headerSlot_toNat (h : BitVec 32) : (headerSlot h).toNat = h.toNat / 2 ^ 24 % 16 := by
  simp [headerSlot, BitVec.extractLsb'_toNat, Nat.shiftRight_eq_div_pow]

theorem headerMethod_toNat (h : BitVec 32) : (headerMethod h).toNat = h.toNat / 2 ^ 16 % 256 := by
  simp [headerMethod, BitVec.extractLsb'_toNat, Nat.shiftRight_eq_div_pow]

theorem headerArg_eq (h : BitVec 32) : headerArg h = h.toNat % 2 ^ 16 := by
  simp [headerArg, BitVec.extractLsb'_toNat]

theorem headerKlen_eq (h : BitVec 32) : headerKlen h = h.toNat / 2 ^ 8 % 256 := by
  simp [headerKlen, BitVec.extractLsb'_toNat, Nat.shiftRight_eq_div_pow]

theorem headerNlen_eq (h : BitVec 32) : headerNlen h = h.toNat % 256 := by
  simp [headerNlen, BitVec.extractLsb'_toNat]

/-! The opcode map and its inverse. -/

@[simp] theorem opcodeOf_opcodeBits (op : Opcode) : opcodeOf (opcodeBits op) = some op := by cases op <;> rfl

theorem opcodeBits_of_opcodeOf {b : BitVec 4} {op : Opcode} (h : opcodeOf b = some op) : opcodeBits op = b := by
  revert b op; decide

/-! A header built from fields has those fields. -/

variable (op : Opcode) (e : SlotIndex) (m : MethodId) (arg : BitVec 16)

@[simp] theorem headerOp_headerOf : headerOp (headerOf op e m arg) = opcodeBits op := by
  apply BitVec.eq_of_getLsbD_eq
  intro i hi
  have h1 : ¬ 28 + i < 16 := by omega
  have h2 : ¬ 28 + i - 16 < 8 := by omega
  have h3 : ¬ 28 + i - 16 - 8 < 4 := by omega
  have h4 : 28 + i - 16 - 8 - 4 = i := by omega
  simp only [headerOp, headerOf, BitVec.getLsbD_extractLsb', BitVec.getLsbD_append]
  simp [h1, h2, h3, h4, hi]

@[simp] theorem headerSlot_headerOf : headerSlot (headerOf op e m arg) = e := by
  apply BitVec.eq_of_getLsbD_eq
  intro i hi
  have h1 : ¬ 24 + i < 16 := by omega
  have h2 : ¬ 24 + i - 16 < 8 := by omega
  have h3 : 24 + i - 16 - 8 = i := by omega
  simp only [headerSlot, headerOf, BitVec.getLsbD_extractLsb', BitVec.getLsbD_append]
  simp [h1, h2, h3, hi]

@[simp] theorem headerMethod_headerOf : headerMethod (headerOf op e m arg) = m := by
  apply BitVec.eq_of_getLsbD_eq
  intro i hi
  have h1 : ¬ 16 + i < 16 := by omega
  have h2 : 16 + i - 16 = i := by omega
  simp only [headerMethod, headerOf, BitVec.getLsbD_extractLsb', BitVec.getLsbD_append]
  simp [h1, h2, hi]

@[simp] theorem headerArg_headerOf : headerArg (headerOf op e m arg) = arg.toNat := by
  apply congrArg BitVec.toNat
  apply BitVec.eq_of_getLsbD_eq
  intro i hi
  simp only [headerOf, BitVec.getLsbD_extractLsb', BitVec.getLsbD_append]
  simp [hi]

@[simp] theorem headerKlen_headerOf (k n : BitVec 8) : headerKlen (headerOf op e m (k ++ n)) = k.toNat := by
  apply congrArg BitVec.toNat
  apply BitVec.eq_of_getLsbD_eq
  intro i hi
  have h1 : 8 + i < 16 := by omega
  have h2 : ¬ 8 + i < 8 := by omega
  have h3 : 8 + i - 8 = i := by omega
  simp only [headerOf, BitVec.getLsbD_extractLsb', BitVec.getLsbD_append]
  simp [h1, h3, hi]

@[simp] theorem headerNlen_headerOf (k n : BitVec 8) : headerNlen (headerOf op e m (k ++ n)) = n.toNat := by
  apply congrArg BitVec.toNat
  apply BitVec.eq_of_getLsbD_eq
  intro i hi
  have h1 : i < 16 := by omega
  simp only [headerOf, BitVec.getLsbD_extractLsb', BitVec.getLsbD_append]
  simp [h1, hi]

/-- The payload length of a header built from fields (R73). -/
theorem plen_headerOf : plen (headerOf op e m arg) =
    match op with
    | .create => headerKlen (headerOf op e m arg) + headerNlen (headerOf op e m arg)
    | .destroy => 0
    | .rdstate => 0
    | _ => arg.toNat := by
  unfold plen
  rw [headerOp_headerOf, opcodeOf_opcodeBits]
  cases op <;> simp

@[simp] theorem length_bytesLe32 (w : Word) : (bytesLe32 w).length = 4 := rfl

/-- A word is read back from its four bytes (R50, R51). -/
@[simp] theorem le32_wordBytes (w : Word) : le32 (wordByte w 0) (wordByte w 1) (wordByte w 2) (wordByte w 3) = w := by
  apply BitVec.eq_of_getLsbD_eq
  intro i hi
  simp only [le32, wordByte, BitVec.getLsbD_or, BitVec.getLsbD_setWidth, BitVec.getLsbD_shiftLeft,
    BitVec.getLsbD_extractLsb', hi, decide_true, Bool.true_and]
  rcases (by omega : i < 8 ∨ (8 ≤ i ∧ i < 16) ∨ (16 ≤ i ∧ i < 24) ∨ (24 ≤ i ∧ i < 32)) with h | ⟨h, h'⟩ | ⟨h, h'⟩ | ⟨h, h'⟩
  · simp [h, show i < 16 by omega, show i < 24 by omega]
  · simp [show ¬ i < 8 by omega, show i < 16 by omega, show i < 24 by omega, show i - 8 < 8 by omega,
      show 8 + (i - 8) = i by omega, show i - 8 < 32 by omega]
  · simp [show ¬ i < 8 by omega, show ¬ i < 16 by omega, show i < 24 by omega, show ¬ i - 8 < 8 by omega,
      show i - 16 < 8 by omega, show 16 + (i - 16) = i by omega, show i - 16 < 32 by omega]
  · simp [show ¬ i < 8 by omega, show ¬ i < 16 by omega, show ¬ i < 24 by omega, show ¬ i - 8 < 8 by omega,
      show ¬ i - 16 < 8 by omega, show i - 24 < 8 by omega, show 24 + (i - 24) = i by omega, show i - 24 < 32 by omega]

/-- Bytes are read back from the word made of them (R50, R51). -/
theorem bytesLe32_le32 (b0 b1 b2 b3 : Byte) : bytesLe32 (le32 b0 b1 b2 b3) = [b0, b1, b2, b3] := by
  have hb : ∀ b : Byte, ∀ i, 8 ≤ i → b.getLsbD i = false := fun b i h => BitVec.getLsbD_of_ge b i h
  simp only [bytesLe32, List.cons.injEq, and_true]
  refine ⟨?_, ?_, ?_, ?_⟩ <;> apply BitVec.eq_of_getLsbD_eq <;> intro i hi <;>
    simp only [le32, wordByte, BitVec.getLsbD_or, BitVec.getLsbD_setWidth, BitVec.getLsbD_shiftLeft,
      BitVec.getLsbD_extractLsb', hi, decide_true, Bool.true_and]
  · simp [show i < 32 by omega, show i < 16 by omega, show i < 24 by omega, hi]
  · simp [show 8 + i < 32 by omega, show 8 + i < 16 by omega, show 8 + i < 24 by omega, show i < 32 by omega]
  · simp [show 16 + i < 32 by omega, show 16 + i < 24 by omega, hb b0 (16 + i) (by omega),
      hb b1 (16 + i - 8) (by omega), show i < 32 by omega]
  · simp [show 24 + i < 32 by omega, hb b0 (24 + i) (by omega), hb b1 (24 + i - 8) (by omega),
      hb b2 (24 + i - 16) (by omega), show i < 32 by omega]

end Sys2Proof
end

