-- ==== Sys2Proof/Laws/State.lean ====
section
/-! SUPPORT. One lemma per field per update of State and Slot. -/

namespace Sys2Proof.Machine

variable (s : State) (e : SlotIndex) (sl : Slot) (st : Status) (q : List Byte)

@[simp] theorem setSlot_registry : (s.setSlot e sl).registry = s.registry := rfl
@[simp] theorem setSlot_debugEn : (s.setSlot e sl).debugEn = s.debugEn := rfl
@[simp] theorem setSlot_slots : (s.setSlot e sl).slots = s.slots.set e.toNat sl := rfl
@[simp] theorem setSlot_inbox : (s.setSlot e sl).inbox = s.inbox := rfl
@[simp] theorem setSlot_outbox : (s.setSlot e sl).outbox = s.outbox := rfl

@[simp] theorem respond_registry : (s.respond st q).registry = s.registry := rfl
@[simp] theorem respond_debugEn : (s.respond st q).debugEn = s.debugEn := rfl
@[simp] theorem respond_slots : (s.respond st q).slots = s.slots := rfl
@[simp] theorem respond_inbox : (s.respond st q).inbox = s.inbox := rfl
@[simp] theorem respond_outbox : (s.respond st q).outbox = s.outbox ++ [responseOf st q] := rfl

@[simp] theorem invalidate_registry : (s.invalidate e sl).registry = s.registry := rfl
@[simp] theorem invalidate_debugEn : (s.invalidate e sl).debugEn = s.debugEn := rfl
@[simp] theorem invalidate_slots :
    (s.invalidate e sl).slots = s.slots.set e.toNat (freedSlot e.toNat sl.draws) := rfl
@[simp] theorem invalidate_inbox : (s.invalidate e sl).inbox = s.inbox := rfl
@[simp] theorem invalidate_outbox : (s.invalidate e sl).outbox = s.outbox := rfl

@[simp] theorem resetEvent_registry : (resetEvent s).registry = s.registry := rfl
@[simp] theorem resetEvent_debugEn : (resetEvent s).debugEn = s.debugEn := rfl
@[simp] theorem resetEvent_inbox : (resetEvent s).inbox = s.inbox := rfl
@[simp] theorem resetEvent_outbox : (resetEvent s).outbox = s.outbox := rfl

@[simp] theorem config_registry : s.config.registry = s.registry := rfl
@[simp] theorem config_debugEn : s.config.debugEn = s.debugEn := rfl
@[simp] theorem config_nEngines : s.config.nEngines = s.slots.length := rfl

@[simp] theorem freedSlot_phase (i n : Nat) : (freedSlot i n).phase = .uninit := rfl
@[simp] theorem freedSlot_draws (i n : Nat) : (freedSlot i n).draws = n + 1 := rfl

@[simp] theorem block_phase : (block sl).phase = sl.phase := rfl
@[simp] theorem block_mid : (block sl).mid = sl.mid := rfl
@[simp] theorem block_st : (block sl).st = counterIncrement sl.st := rfl
@[simp] theorem block_buf : (block sl).buf = keystreamBlock sl.st := rfl
@[simp] theorem block_cur : (block sl).cur = 0 := rfl
@[simp] theorem block_draws : (block sl).draws = sl.draws := rfl

@[simp] theorem mux_eq {α : Type} (t : Transform) (op : α) : mux t op = op := by cases t; rfl

/-! The status word's fields (R76). -/

theorem statusWord_toNat (n : Nat) (st : Status) (h : n < 65536) :
    (statusWord n st).toNat = n * 2 ^ 16 + (statusCode st).toNat := by
  have hc := (statusCode st).isLt
  have h0 : (0 : BitVec 8).toNat = 0 := rfl
  simp only [statusWord, BitVec.toNat_append, BitVec.toNat_ofNat, Nat.mod_eq_of_lt h, h0, Nat.or_zero]
  rw [← Nat.shiftLeft_add_eq_or_of_lt hc, Nat.shiftLeft_eq, Nat.shiftLeft_eq, Nat.mul_assoc, ← Nat.pow_add]

@[simp] theorem statusField_statusWord (n : Nat) (st : Status) : statusField (statusWord n st) = statusCode st := by
  apply BitVec.eq_of_getLsbD_eq
  intro i hi
  simp only [statusField, statusWord, BitVec.getLsbD_extractLsb', BitVec.getLsbD_append, Nat.zero_add, hi, decide_true,
    Bool.true_and, if_true]

end Sys2Proof.Machine
end

