-- ==== Sys2Proof/Laws/Ops.lean ====
section
/-! SUPPORT. What each shared operation and each meaning can do, said once: later proofs cite these and unfold nothing. -/

namespace Sys2Proof.Machine

/-! Reading and writing slots. -/

theorem slot?_lt {s : State} {e : SlotIndex} {sl : Slot} (h : s.slot? e = some sl) : e.toNat < s.slots.length :=
  (List.getElem?_eq_some_iff.mp h).1

theorem slot?_mem {s : State} {e : SlotIndex} {sl : Slot} (h : s.slot? e = some sl) : sl ∈ s.slots :=
  List.mem_of_getElem? h

@[simp] theorem slot?_respond (s : State) (st : Status) (q : List Byte) (e : SlotIndex) :
    (s.respond st q).slot? e = s.slot? e := rfl

theorem slot?_setSlot_self {s : State} {e : SlotIndex} {sl : Slot} (h : s.slot? e = some sl) (sl' : Slot) :
    (s.setSlot e sl').slot? e = some sl' := by
  simp [State.slot?, slot?_lt h]

theorem slot?_setSlot_ne (s : State) {e e' : SlotIndex} (h : e' ≠ e) (sl' : Slot) :
    (s.setSlot e sl').slot? e' = s.slot? e' := by
  have : e.toNat ≠ e'.toNat := fun h' => h (BitVec.eq_of_toNat_eq h'.symm)
  simp [State.slot?, List.getElem?_set_ne this]

theorem slot?_none_iff (s : State) (e : SlotIndex) : s.slot? e = none ↔ s.slots.length ≤ e.toNat := by
  simp [State.slot?]

theorem onlySlotChanged_setSlot (s : State) (e : SlotIndex) (sl : Slot) (st : Status) (q : List Byte) :
    OnlySlotChanged e s ((s.setSlot e sl).respond st q) := by
  refine ⟨rfl, rfl, rfl, by simp, fun j hj => ?_⟩
  simp [List.getElem?_set_ne (Ne.symm hj)]

theorem onlySlotChanged_respond (s : State) (e : SlotIndex) (st : Status) (q : List Byte) :
    OnlySlotChanged e s (s.respond st q) := ⟨rfl, rfl, rfl, rfl, fun _ _ => rfl⟩

/-! The shared checks. -/

theorem withSlot_some {s : State} {e : SlotIndex} {sl : Slot} (h : s.slot? e = some sl) (k : Slot → Result) :
    withSlot s e k = k sl := by simp [withSlot, h]

theorem withSlot_none {s : State} {e : SlotIndex} (h : s.slot? e = none) (k : Slot → Result) :
    withSlot s e k = .next (s.respond .illegalCommand []) := by simp [withSlot, h, raise]

theorem withEngine_live {s : State} {e : SlotIndex} {sl : Slot} (h : s.slot? e = some sl) (hp : sl.phase ≠ .uninit)
    (k : Slot → Result) : withEngine s e k = k sl := by simp [withEngine, withSlot_some h, hp]

theorem withEngine_empty {s : State} {e : SlotIndex} {sl : Slot} (h : s.slot? e = some sl) (hp : sl.phase = .uninit)
    (k : Slot → Result) : withEngine s e k = .next (s.respond .noEngine []) := by
  simp [withEngine, withSlot_some h, hp, raise]

theorem withEngine_none {s : State} {e : SlotIndex} (h : s.slot? e = none) (k : Slot → Result) :
    withEngine s e k = .next (s.respond .illegalCommand []) := withSlot_none h _

theorem withDebug_on {s : State} (h : s.debugEn = true) (r : Result) : withDebug s r = r := by simp [withDebug, h]

theorem withDebug_off {s : State} (h : s.debugEn = false) (r : Result) :
    withDebug s r = .next (s.respond .illegalCommand []) := by simp [withDebug, h, raise]

/-! What each meaning answers. -/

theorem execResolve_eq (name : List Byte) (s : State) :
    execResolve name s = .next (match lookupName s.registry name with
      | none => s.respond .unsupportedMethod []
      | some d => s.respond .ok [d.id, d.keyLen, d.nonceLen]) := by
  unfold execResolve; cases lookupName s.registry name <;> rfl

/-- The slot a successful CREATE leaves (R145). -/
def createdSlot (sl : Slot) (m : MethodId) (key nonce : List Byte) : Slot :=
  { constructEngine { sl with mid := m } key nonce with phase := .init }

/-- The slot a successful SETIV leaves (R160). -/
def resyncedSlot (sl : Slot) (nonce : List Byte) : Slot := { resyncEngine sl nonce with phase := .init }

/-- The slot an UPDATE leaves (R150). -/
def streamedSlot (sl : Slot) (data : List Byte) : Slot := { (streamSlot sl data).1 with phase := .stream }

theorem execCreate_eq {s : State} {e : SlotIndex} {sl : Slot} (h : s.slot? e = some sl) (m : MethodId)
    (key nonce : List Byte) :
    execCreate e m key nonce s =
      match lookupId s.registry m with
      | none => .next ((s.invalidate e sl).respond .unsupportedMethod [])
      | some d =>
        if key.length ≠ d.keyLen.toNat ∨ ¬(nonce.length = 8 ∨ nonce.length = 12) then
          .next ((s.invalidate e sl).respond .invalidParameter [])
        else if key.length ≠ 32 then .refused .registryOutsideSpec
        else .next ((s.setSlot e (createdSlot sl m key nonce)).respond .ok []) := by
  simp only [execCreate, withSlot_some h]
  cases lookupId s.registry m with
  | none => rfl
  | some d =>
    have hn : nonceLengthOk nonce.length = decide (nonce.length = 8 ∨ nonce.length = 12) := by
      rw [Bool.eq_iff_iff]; simp [nonceLengthOk]
    by_cases h1 : key.length = d.keyLen.toNat <;> by_cases h2 : nonce.length = 8 ∨ nonce.length = 12 <;>
      simp only [h1, h2, hn, ne_eq, not_true, not_false_iff, if_true, if_false, decide_true, decide_false, Bool.not_true,
        Bool.not_false, or_self, or_true, or_false, reduceCtorEq, mux_eq] <;> rfl

theorem execUpdate_eq {s : State} {e : SlotIndex} {sl : Slot} (h : s.slot? e = some sl) (hp : sl.phase ≠ .uninit)
    (data : List Byte) :
    execUpdate e data s = .next ((s.setSlot e (streamedSlot sl data)).respond .ok (streamSlot sl data).2) := by
  simp [execUpdate, withEngine_live h hp, finish, streamedSlot]

theorem execSetiv_eq {s : State} {e : SlotIndex} {sl : Slot} (h : s.slot? e = some sl) (hp : sl.phase ≠ .uninit)
    (nonce : List Byte) :
    execSetiv e nonce s =
      if nonce.length = 8 ∨ nonce.length = 12 then .next ((s.setSlot e (resyncedSlot sl nonce)).respond .ok [])
      else .next ((s.invalidate e sl).respond .invalidParameter []) := by
  by_cases h2 : nonce.length = 8 ∨ nonce.length = 12 <;>
    simp [execSetiv, withEngine_live h hp, h2, nonceLengthOk, raise, finish, resyncedSlot]

theorem execDestroy_eq {s : State} {e : SlotIndex} {sl : Slot} (h : s.slot? e = some sl) :
    execDestroy e s =
      .next ((if sl.phase = .uninit then s else s.invalidate e sl).respond .ok []) := by
  by_cases hp : sl.phase = .uninit <;> simp [execDestroy, withSlot_some h, hp, finish]

theorem execRdstate_eq {s : State} {e : SlotIndex} {sl : Slot} (hd : s.debugEn = true) (h : s.slot? e = some sl)
    (hp : sl.phase ≠ .uninit) : execRdstate e s = .next (s.respond .ok (slotReport sl)) := by
  simp [execRdstate, withDebug_on hd, withEngine_live h hp, finish]

theorem execWrctr_eq {s : State} {e : SlotIndex} {sl : Slot} (hd : s.debugEn = true) (h : s.slot? e = some sl)
    (hp : sl.phase ≠ .uninit) (lo hi : Word) :
    execWrctr e lo hi s =
      .next ((s.setSlot e { sl with st := (sl.st.set 12 lo).set 13 hi }).respond .ok []) := by
  simp [execWrctr, withDebug_on hd, withEngine_live h hp, finish]

theorem execQround_eq {s : State} (hd : s.debugEn = true) (a b c d : Word) :
    execQround a b c d s = .next (s.respond .ok
      (bytesLe32 (quarterRound a b c d).1 ++ bytesLe32 (quarterRound a b c d).2.1 ++
        bytesLe32 (quarterRound a b c d).2.2.1 ++ bytesLe32 (quarterRound a b c d).2.2.2)) := by
  simp [execQround, withDebug_on hd, finish]

/-- Everything a command that answers a next state can have done: it appended one response and either left every slot, or
wrote the slot it addresses with one of the four slots of R145, R150, R160, R188, or left it UNINIT. -/
theorem exec_next_cases {i : Instr} {s t : State} (h : exec i s = .next t) :
    (∃ st q, st ∈ statusesOf i ∧ t = s.respond st q ∧ (st ≠ .ok → q = [])) ∨
    ∃ e sl, i.slot? = some e ∧ s.slot? e = some sl ∧
      ((∃ m key nonce, i = .create e m key nonce ∧ (nonce.length = 8 ∨ nonce.length = 12) ∧ key.length = 32 ∧
          t = (s.setSlot e (createdSlot sl m key nonce)).respond .ok []) ∨
        (∃ data, i = .update e data ∧ sl.phase ≠ .uninit ∧
          t = (s.setSlot e (streamedSlot sl data)).respond .ok (streamSlot sl data).2) ∨
        (∃ nonce, i = .setiv e nonce ∧ sl.phase ≠ .uninit ∧ (nonce.length = 8 ∨ nonce.length = 12) ∧
          t = (s.setSlot e (resyncedSlot sl nonce)).respond .ok []) ∨
        (∃ lo hi, i = .wrctr e lo hi ∧ sl.phase ≠ .uninit ∧
          t = (s.setSlot e { sl with st := (sl.st.set 12 lo).set 13 hi }).respond .ok []) ∨
        (∃ st, st ∈ statusesOf i ∧ ((∃ m key nonce, i = .create e m key nonce ∧ st ≠ .ok) ∨
            (∃ nonce, i = .setiv e nonce ∧ st ≠ .ok ∧ sl.phase ≠ .uninit) ∨ (i = .destroy e ∧ st = .ok)) ∧
          t = (s.invalidate e sl).respond st [])) := by
  cases i with
  | resolve name =>
    left
    rw [show exec (.resolve name) s = execResolve name s from rfl, execResolve_eq] at h
    cases hl : lookupName s.registry name with
    | none => exact ⟨.unsupportedMethod, _, by simp [statusesOf], by simpa [hl] using h.symm, fun _ => rfl⟩
    | some d => exact ⟨.ok, _, by simp [statusesOf], by simpa [hl] using h.symm, fun h => absurd rfl h⟩
  | create e m key nonce =>
    change execCreate e m key nonce s = _ at h
    cases hs : s.slot? e with
    | none =>
      simp only [execCreate, withSlot_none hs, Host.Outcome.next.injEq] at h
      exact .inl ⟨_, _, by simp [statusesOf], h.symm, fun _ => rfl⟩
    | some sl =>
      right
      rw [execCreate_eq hs] at h
      refine ⟨e, sl, rfl, hs, ?_⟩
      cases hl : lookupId s.registry m with
      | none =>
        simp only [hl, Host.Outcome.next.injEq] at h
        exact .inr (.inr (.inr (.inr ⟨_, by simp [statusesOf], .inl ⟨m, key, nonce, rfl, by decide⟩, h.symm⟩)))
      | some d =>
        simp only [hl] at h
        split at h
        · simp only [Host.Outcome.next.injEq] at h
          exact .inr (.inr (.inr (.inr ⟨_, by simp [statusesOf], .inl ⟨m, key, nonce, rfl, by decide⟩, h.symm⟩)))
        · rename_i hc
          split at h
          · cases h
          · rename_i hk
            simp only [Host.Outcome.next.injEq] at h
            refine .inl ⟨m, key, nonce, rfl, ?_, by simpa using hk, h.symm⟩
            by_contra hn
            exact hc (.inr hn)
  | update e data =>
    change execUpdate e data s = _ at h
    cases hs : s.slot? e with
    | none =>
      simp only [execUpdate, withEngine_none hs, Host.Outcome.next.injEq] at h
      exact .inl ⟨_, _, by simp [statusesOf], h.symm, fun _ => rfl⟩
    | some sl =>
      by_cases hp : sl.phase = .uninit
      · simp only [execUpdate, withEngine_empty hs hp, Host.Outcome.next.injEq] at h
        exact .inl ⟨_, _, by simp [statusesOf], h.symm, fun _ => rfl⟩
      · rw [execUpdate_eq hs hp] at h
        simp only [Host.Outcome.next.injEq] at h
        exact .inr ⟨e, sl, rfl, hs, .inr (.inl ⟨data, rfl, hp, h.symm⟩)⟩
  | setiv e nonce =>
    change execSetiv e nonce s = _ at h
    cases hs : s.slot? e with
    | none =>
      simp only [execSetiv, withEngine_none hs, Host.Outcome.next.injEq] at h
      exact .inl ⟨_, _, by simp [statusesOf], h.symm, fun _ => rfl⟩
    | some sl =>
      by_cases hp : sl.phase = .uninit
      · simp only [execSetiv, withEngine_empty hs hp, Host.Outcome.next.injEq] at h
        exact .inl ⟨_, _, by simp [statusesOf], h.symm, fun _ => rfl⟩
      · rw [execSetiv_eq hs hp] at h
        refine .inr ⟨e, sl, rfl, hs, ?_⟩
        split at h <;> simp only [Host.Outcome.next.injEq] at h
        · rename_i hn
          exact .inr (.inr (.inl ⟨nonce, rfl, hp, hn, h.symm⟩))
        · exact .inr (.inr (.inr (.inr
            ⟨_, by simp [statusesOf], .inr (.inl ⟨nonce, rfl, by decide, hp⟩), h.symm⟩)))
  | destroy e =>
    change execDestroy e s = _ at h
    cases hs : s.slot? e with
    | none =>
      simp only [execDestroy, withSlot_none hs, Host.Outcome.next.injEq] at h
      exact .inl ⟨_, _, by simp [statusesOf], h.symm, fun _ => rfl⟩
    | some sl =>
      rw [execDestroy_eq hs] at h
      by_cases hp : sl.phase = .uninit <;> simp only [hp, if_true, if_false, Host.Outcome.next.injEq] at h
      · exact .inl ⟨.ok, _, by simp [statusesOf], h.symm, fun h => absurd rfl h⟩
      · exact .inr ⟨e, sl, rfl, hs, .inr (.inr (.inr (.inr
          ⟨_, by simp [statusesOf], .inr (.inr ⟨rfl, rfl⟩), h.symm⟩)))⟩
  | rdstate e =>
    change execRdstate e s = _ at h
    left
    by_cases hd : s.debugEn = true
    · cases hs : s.slot? e with
      | none =>
        simp only [execRdstate, withDebug_on hd, withEngine_none hs, Host.Outcome.next.injEq] at h
        exact ⟨_, _, by simp [statusesOf], h.symm, fun _ => rfl⟩
      | some sl =>
        by_cases hp : sl.phase = .uninit
        · simp only [execRdstate, withDebug_on hd, withEngine_empty hs hp, Host.Outcome.next.injEq] at h
          exact ⟨_, _, by simp [statusesOf], h.symm, fun _ => rfl⟩
        · rw [execRdstate_eq hd hs hp] at h
          simp only [Host.Outcome.next.injEq] at h
          exact ⟨.ok, _, by simp [statusesOf], h.symm, fun h => absurd rfl h⟩
    · simp only [execRdstate, withDebug_off (by simpa using hd), Host.Outcome.next.injEq] at h
      exact ⟨_, _, by simp [statusesOf], h.symm, fun _ => rfl⟩
  | wrctr e lo hi =>
    change execWrctr e lo hi s = _ at h
    by_cases hd : s.debugEn = true
    · cases hs : s.slot? e with
      | none =>
        simp only [execWrctr, withDebug_on hd, withEngine_none hs, Host.Outcome.next.injEq] at h
        exact .inl ⟨_, _, by simp [statusesOf], h.symm, fun _ => rfl⟩
      | some sl =>
        by_cases hp : sl.phase = .uninit
        · simp only [execWrctr, withDebug_on hd, withEngine_empty hs hp, Host.Outcome.next.injEq] at h
          exact .inl ⟨_, _, by simp [statusesOf], h.symm, fun _ => rfl⟩
        · rw [execWrctr_eq hd hs hp] at h
          simp only [Host.Outcome.next.injEq] at h
          exact .inr ⟨e, sl, rfl, hs, .inr (.inr (.inr (.inl ⟨lo, hi, rfl, hp, h.symm⟩)))⟩
    · simp only [execWrctr, withDebug_off (by simpa using hd), Host.Outcome.next.injEq] at h
      exact .inl ⟨_, _, by simp [statusesOf], h.symm, fun _ => rfl⟩
  | qround a b c d =>
    change execQround a b c d s = _ at h
    left
    by_cases hd : s.debugEn = true
    · rw [execQround_eq hd] at h
      simp only [Host.Outcome.next.injEq] at h
      exact ⟨.ok, _, by simp [statusesOf], h.symm, fun h => absurd rfl h⟩
    · simp only [execQround, withDebug_off (by simpa using hd), Host.Outcome.next.injEq] at h
      exact ⟨_, _, by simp [statusesOf], h.symm, fun _ => rfl⟩

end Sys2Proof.Machine
end

