-- ==== Sys2Proof/Laws/Engine.lean ====
section
/-! SUPPORT. Laws of the engine: the counter, the words SETNONCE and STATEINIT write, and the update loop as an equation without
fuel. -/

namespace Sys2Proof.Machine

/-! The counter (R130). -/

theorem counterIncrement_eq (st : Vector Word 16) :
    counterIncrement st =
      if st[12] + 1 = 0 then (st.set 12 (st[12] + 1)).set 13 (st[13] + 1) else st.set 12 (st[12] + 1) := by
  simp [counterIncrement, add32, counterCarry]

@[simp] theorem counterIncrement_word12 (st : Vector Word 16) : (counterIncrement st)[12] = st[12] + 1 := by
  rw [counterIncrement_eq]; split <;> simp

theorem counterIncrement_word13 (st : Vector Word 16) :
    (counterIncrement st)[13] = if st[12] + 1 = 0 then st[13] + 1 else st[13] := by
  rw [counterIncrement_eq]; split <;> simp

theorem counterIncrement_other (st : Vector Word 16) (i : Nat) (hi : i < 16) (h12 : i ≠ 12) (h13 : i ≠ 13) :
    (counterIncrement st)[i] = st[i] := by
  rw [counterIncrement_eq]; split <;> simp [Ne.symm h12, Ne.symm h13]

theorem counterAfter_add (a b : Nat) (st : Vector Word 16) :
    counterAfter (a + b) st = counterAfter a (counterAfter b st) := by
  induction a with
  | zero => simp [counterAfter]
  | succ a ih => rw [Nat.succ_add]; simp [counterAfter, ih]

theorem counterAfter_increment (g : Nat) (st : Vector Word 16) :
    counterAfter g (counterIncrement st) = counterAfter (g + 1) st := by
  rw [counterAfter_add g 1]; rfl

theorem counterAfter_other (g : Nat) (st : Vector Word 16) (i : Nat) (hi : i < 16) (h12 : i ≠ 12) (h13 : i ≠ 13) :
    (counterAfter g st)[i] = st[i] := by
  induction g with
  | zero => rfl
  | succ g ih => rw [counterAfter, counterIncrement_other _ i hi h12 h13, ih]

/-! STATEINIT and SETNONCE write what they write from the operands alone (R140, R141). -/

theorem setNonce_other (st : Vector Word 16) (nonce : List Byte) (i : Nat) (hi : i < 12) :
    (setNonce st nonce)[i]'(by omega) = st[i] := by
  have h12 : 12 ≠ i := by omega
  have h13 : 13 ≠ i := by omega
  have h14 : 14 ≠ i := by omega
  have h15 : 15 ≠ i := by omega
  unfold setNonce; split <;> simp [h12, h13, h14, h15]

theorem setNonce_eq_of_prefix {a b : Vector Word 16} (nonce : List Byte) (h : ∀ i : Fin 12, a[i.val] = b[i.val]) :
    setNonce a nonce = setNonce b nonce := by
  apply Vector.ext
  intro i hi
  by_cases h12 : i < 12
  · rw [setNonce_other _ _ _ h12, setNonce_other _ _ _ h12]; exact h ⟨i, h12⟩
  · unfold setNonce
    obtain rfl | rfl | rfl | rfl : i = 12 ∨ i = 13 ∨ i = 14 ∨ i = 15 := by omega
    all_goals split <;> simp

theorem stateInit_prefix (a b : Vector Word 16) (key : List Byte) (i : Fin 12) :
    (stateInit a key)[i.val] = (stateInit b key)[i.val] := by
  fin_cases i <;> rfl

theorem setNonce_stateInit (st : Vector Word 16) (key nonce : List Byte) :
    setNonce (stateInit st key) nonce = streamStart key nonce :=
  setNonce_eq_of_prefix nonce (stateInit_prefix st _ key)

/-! The slots CREATE and SETIV leave. -/

@[simp] theorem createdSlot_phase (sl : Slot) (m : MethodId) (key nonce : List Byte) :
    (createdSlot sl m key nonce).phase = .init := rfl
@[simp] theorem createdSlot_mid (sl : Slot) (m : MethodId) (key nonce : List Byte) :
    (createdSlot sl m key nonce).mid = m := rfl
@[simp] theorem createdSlot_cur (sl : Slot) (m : MethodId) (key nonce : List Byte) :
    (createdSlot sl m key nonce).cur = 0 := rfl
@[simp] theorem createdSlot_st (sl : Slot) (m : MethodId) (key nonce : List Byte) :
    (createdSlot sl m key nonce).st = counterIncrement (streamStart key nonce) := by
  rw [← setNonce_stateInit sl.st]; rfl
@[simp] theorem createdSlot_buf (sl : Slot) (m : MethodId) (key nonce : List Byte) :
    (createdSlot sl m key nonce).buf = keystreamBlock (streamStart key nonce) := by
  rw [← setNonce_stateInit sl.st]; rfl

@[simp] theorem resyncedSlot_phase (sl : Slot) (nonce : List Byte) : (resyncedSlot sl nonce).phase = .init := rfl
@[simp] theorem resyncedSlot_mid (sl : Slot) (nonce : List Byte) : (resyncedSlot sl nonce).mid = sl.mid := rfl
@[simp] theorem resyncedSlot_cur (sl : Slot) (nonce : List Byte) : (resyncedSlot sl nonce).cur = 0 := rfl
@[simp] theorem resyncedSlot_st (sl : Slot) (nonce : List Byte) :
    (resyncedSlot sl nonce).st = counterIncrement (setNonce sl.st nonce) := rfl
@[simp] theorem resyncedSlot_buf (sl : Slot) (nonce : List Byte) :
    (resyncedSlot sl nonce).buf = keystreamBlock (setNonce sl.st nonce) := rfl

/-! The update loop (R150). -/

/-- The fuel streamLoop needs: one more pass where the cursor is 64, which consumes nothing (R151). -/
def fuelNeeded (sl : Slot) (n : Nat) : Nat := if sl.cur.val = 64 then n + 2 else n + 1

theorem streamLoop_succ (fuel : Nat) (sl : Slot) (input : List Byte) (h : fuelNeeded sl input.length ≤ fuel) :
    streamLoop (fuel + 1) sl input = streamLoop fuel sl input := by
  induction fuel generalizing sl input with
  | zero => unfold fuelNeeded at h; split at h <;> omega
  | succ fuel ih =>
    have hc := sl.cur.isLt
    rw [streamLoop, streamLoop]
    split
    · rename_i hle
      simp only
      rw [ih]
      unfold fuelNeeded at h ⊢
      simp only [block_cur, Fin.val_zero, List.length_drop]
      split at h <;> simp <;> omega
    · rfl

theorem streamLoop_fuel (fuel : Nat) (sl : Slot) (input : List Byte) (h : fuelNeeded sl input.length ≤ fuel) :
    streamLoop fuel sl input = streamSlot sl input := by
  have key : ∀ k, streamLoop (fuelNeeded sl input.length + k) sl input =
      streamLoop (fuelNeeded sl input.length) sl input := by
    intro k
    induction k with
    | zero => rfl
    | succ k ih => rw [← Nat.add_assoc, streamLoop_succ _ _ _ (Nat.le_add_right _ _), ih]
  obtain ⟨k, rfl⟩ := Nat.exists_eq_add_of_le h
  obtain ⟨j, hj⟩ := Nat.exists_eq_add_of_le (show fuelNeeded sl input.length ≤ input.length + 2 by
    unfold fuelNeeded; split <;> omega)
  rw [streamSlot, hj, key, key]

/-- One pass where what is left of the buffer is used up (R150 step 1). -/
theorem streamSlot_refill (sl : Slot) (input : List Byte) (h : 64 - sl.cur.val ≤ input.length) :
    streamSlot sl input =
      ((streamSlot (block sl) (input.drop (64 - sl.cur.val))).1,
        List.zipWith xorLane (input.take (64 - sl.cur.val)) (unreadBytes sl)
          ++ (streamSlot (block sl) (input.drop (64 - sl.cur.val))).2) := by
  have hc := sl.cur.isLt
  rw [streamSlot, streamLoop, dif_pos h]
  simp only
  rw [streamLoop_fuel]
  unfold fuelNeeded
  simp

/-- The tail, shorter than what is left of the buffer (R150 step 2). -/
theorem streamSlot_tail (sl : Slot) (input : List Byte) (h : ¬ 64 - sl.cur.val ≤ input.length) :
    streamSlot sl input =
      ({ sl with cur := ⟨sl.cur.val + input.length, by omega⟩ }, List.zipWith xorLane input (unreadBytes sl)) := by
  rw [streamSlot, streamLoop, dif_neg h]

@[simp] theorem length_unreadBytes (sl : Slot) : (unreadBytes sl).length = 64 - sl.cur.val := by simp [unreadBytes]

/-- Induction along the passes of UPDATE: it is enough to treat the tail and one refill. -/
theorem stream_induction {P : Slot → List Byte → Prop}
    (tail : ∀ sl input, ¬ 64 - sl.cur.val ≤ input.length → P sl input)
    (refill : ∀ sl input, 64 - sl.cur.val ≤ input.length → P (block sl) (input.drop (64 - sl.cur.val)) → P sl input)
    (sl : Slot) (input : List Byte) : P sl input := by
  have main : ∀ n, ∀ sl input, fuelNeeded sl input.length ≤ n → P sl input := by
    intro n
    induction n with
    | zero => intro sl input h; unfold fuelNeeded at h; split at h <;> omega
    | succ n ih =>
      intro sl input h
      by_cases hle : 64 - sl.cur.val ≤ input.length
      · refine refill sl input hle (ih _ _ ?_)
        have hc := sl.cur.isLt
        unfold fuelNeeded at h ⊢
        simp only [block_cur, Fin.val_zero, List.length_drop]
        split at h <;> simp <;> omega
      · exact tail sl input hle
  exact main _ sl input le_rfl

theorem streamSlot_phase (sl : Slot) (input : List Byte) : (streamSlot sl input).1.phase = sl.phase := by
  induction sl, input using stream_induction with
  | tail sl input h => rw [streamSlot_tail _ _ h]
  | refill sl input h ih => rw [streamSlot_refill _ _ h]; exact ih

theorem streamSlot_mid (sl : Slot) (input : List Byte) : (streamSlot sl input).1.mid = sl.mid := by
  induction sl, input using stream_induction with
  | tail sl input h => rw [streamSlot_tail _ _ h]
  | refill sl input h ih => rw [streamSlot_refill _ _ h]; exact ih

theorem streamSlot_draws (sl : Slot) (input : List Byte) : (streamSlot sl input).1.draws = sl.draws := by
  induction sl, input using stream_induction with
  | tail sl input h => rw [streamSlot_tail _ _ h]
  | refill sl input h ih => rw [streamSlot_refill _ _ h]; exact ih

/-- "same length as input" (R153). -/
theorem streamSlot_length (sl : Slot) (input : List Byte) : (streamSlot sl input).2.length = input.length := by
  induction sl, input using stream_induction with
  | tail sl input h => rw [streamSlot_tail _ _ h]; simp; omega
  | refill sl input h ih => rw [streamSlot_refill _ _ h]; simp [ih]; omega

/-- UPDATE never leaves the cursor at 64 (R29, R152). -/
theorem streamSlot_cur_lt (sl : Slot) (input : List Byte) : (streamSlot sl input).1.cur.val < 64 := by
  induction sl, input using stream_induction with
  | tail sl input h => rw [streamSlot_tail _ _ h]; simp; omega
  | refill sl input h ih => rw [streamSlot_refill _ _ h]; exact ih

/-- Words 0-11, 14 and 15 keep their values under UPDATE (R129). -/
theorem streamSlot_st_other (sl : Slot) (input : List Byte) (i : Nat) (hi : i < 16) (h12 : i ≠ 12) (h13 : i ≠ 13) :
    (streamSlot sl input).1.st[i] = sl.st[i] := by
  induction sl, input using stream_induction with
  | tail sl input h => rw [streamSlot_tail _ _ h]
  | refill sl input h ih =>
    rw [streamSlot_refill _ _ h]
    exact ih.trans (by simp only [block_st]; exact counterIncrement_other _ _ _ h12 h13)

/-! What UPDATE leaves, and the bytes it returns (R150, R152). -/

theorem getD_zipWith_xorLane (a b : List Byte) (i : Nat) (ha : i < a.length) (hb : i < b.length) :
    (List.zipWith xorLane a b).getD i 0 = a.getD i 0 ^^^ b.getD i 0 := by
  simp [List.getD_eq_getElem?_getD, ha, hb, xorLane]

theorem bufferByte_congr (buf : Vector Byte 64) {i j : Nat} (h : i % 64 = j % 64) : bufferByte buf i = bufferByte buf j := by
  simp only [bufferByte, h]

theorem unreadBytes_getD (sl : Slot) (i : Nat) (h : sl.cur.val + i < 64) :
    (unreadBytes sl).getD i 0 = bufferByte sl.buf (sl.cur.val + i) := by
  have : (sl.cur.val + i) % 64 = sl.cur.val + i := by omega
  simp [unreadBytes, List.getD_eq_getElem?_getD, h, bufferByte, this]

/-- Cursor, words and buffer after UPDATE's transform, in closed form. -/
theorem streamSlot_end (sl : Slot) (input : List Byte) :
    (streamSlot sl input).1.cur.val = (sl.cur.val + input.length) % 64 ∧
    (streamSlot sl input).1.st = counterAfter ((sl.cur.val + input.length) / 64) sl.st ∧
    (streamSlot sl input).1.buf = (if (sl.cur.val + input.length) / 64 = 0 then sl.buf
      else keystreamBlock (counterAfter ((sl.cur.val + input.length) / 64 - 1) sl.st)) := by
  induction sl, input using stream_induction with
  | tail sl input h =>
    have hc := sl.cur.isLt
    have h0 : (sl.cur.val + input.length) / 64 = 0 := by omega
    rw [streamSlot_tail _ _ h]
    simp [h0, counterAfter]; omega
  | refill sl input h ih =>
    have hc := sl.cur.isLt
    rw [streamSlot_refill _ _ h]
    simp only [block_cur, Fin.val_zero, List.length_drop, block_st, block_buf] at ih
    obtain ⟨hcur, hst, hbuf⟩ := ih
    have h1 : (sl.cur.val + input.length) / 64 = (0 + (input.length - (64 - sl.cur.val))) / 64 + 1 := by omega
    refine ⟨by rw [hcur]; omega, by rw [hst, h1, counterAfter_increment], ?_⟩
    rw [hbuf, h1, if_neg (Nat.succ_ne_zero _), Nat.add_sub_cancel]
    split
    · rename_i h0; rw [h0]; rfl
    · rw [counterAfter_increment, Nat.sub_add_cancel (by omega)]

end Sys2Proof.Machine
end

