-- ==== Sys2Proof/Laws/PerInstr.lean ====
section
/-! SUPPORT. Statements about every instruction as syntax, one lemma per constructor: the encoding of an instruction whose
operands fit is a command, its payload as long as its header says (R70, R73). -/

namespace Sys2Proof.Laws.EncodesToACommand

open Sys2Proof Sys2Proof.Machine

/-- The encoding of an instruction whose operands fit the header's length fields is a well-formed command (R70). -/
def Statement (i : Instr) : Prop := i.fits = true → wellFormedCommand (encode i) = true

theorem resolve (name : List Byte) : Statement (.resolve name) := by
  intro h
  simp only [Instr.fits, decide_eq_true_eq] at h
  simp [wellFormedCommand, encode, encodeHeader, encodePayload, plen_headerOf]; omega

theorem create (slot : SlotIndex) (method : MethodId) (key nonce : List Byte) :
    Statement (.create slot method key nonce) := by
  intro h
  simp only [Instr.fits, Bool.and_eq_true, decide_eq_true_eq] at h
  simp [wellFormedCommand, encode, encodeHeader, encodePayload, plen_headerOf]; omega

theorem update (slot : SlotIndex) (data : List Byte) : Statement (.update slot data) := by
  intro h
  simp only [Instr.fits, decide_eq_true_eq] at h
  simp [wellFormedCommand, encode, encodeHeader, encodePayload, plen_headerOf]; omega

theorem setiv (slot : SlotIndex) (nonce : List Byte) : Statement (.setiv slot nonce) := by
  intro h
  simp only [Instr.fits, decide_eq_true_eq] at h
  simp [wellFormedCommand, encode, encodeHeader, encodePayload, plen_headerOf]; omega

theorem destroy (slot : SlotIndex) : Statement (.destroy slot) := by
  intro _
  simp [wellFormedCommand, encode, encodeHeader, encodePayload, plen_headerOf]

theorem rdstate (slot : SlotIndex) : Statement (.rdstate slot) := by
  intro _
  simp [wellFormedCommand, encode, encodeHeader, encodePayload, plen_headerOf]

theorem wrctr (slot : SlotIndex) (lo hi : Word) : Statement (.wrctr slot lo hi) := by
  intro _
  simp [wellFormedCommand, encode, encodeHeader, encodePayload, plen_headerOf]

theorem qround (a b c d : Word) : Statement (.qround a b c d) := by
  intro _
  simp [wellFormedCommand, encode, encodeHeader, encodePayload, plen_headerOf]

end Sys2Proof.Laws.EncodesToACommand
end

