-- ==== Sys2Proof/Laws/Step.lean ====
section
/-! SUPPORT. Everything a step can do, said once (R60, R82, R225, R230). -/

namespace Sys2Proof.Machine

/-- A step that answers a next state left an idle unit as it was, took a reset, turned an illegal header away, or carried out the
command the decoder read. -/
theorem step_next_cases {s t : State} (h : step s = .next t) :
    (s.inbox = [] ∧ t = s) ∨
    (∃ rest, s.inbox = .reset :: rest ∧ t = resetEvent { s with inbox := rest }) ∨
    (∃ c rest r, s.inbox = .command c :: rest ∧ decode s.config c = .error (.illegal r) ∧
      t = ({ s with inbox := rest }).respond .illegalCommand []) ∨
    ∃ c rest i, s.inbox = .command c :: rest ∧ decode s.config c = .ok i ∧ exec i { s with inbox := rest } = .next t := by
  unfold step fetch at h
  match hi : s.inbox with
  | [] =>
    simp only [hi, Host.Outcome.next.injEq] at h
    exact .inl ⟨rfl, h.symm⟩
  | .reset :: rest =>
    simp only [hi, Host.Outcome.next.injEq] at h
    exact .inr (.inl ⟨rest, rfl, h.symm⟩)
  | .command c :: rest =>
    simp only [hi] at h
    cases hd : decode s.config c with
    | error r =>
      cases r with
      | notACommand => simp [hd] at h
      | illegal r =>
        simp only [hd, raise, Host.Outcome.next.injEq] at h
        exact .inr (.inr (.inl ⟨c, rest, r, rfl, hd, h.symm⟩))
    | ok i =>
      simp only [hd] at h
      exact .inr (.inr (.inr ⟨c, rest, i, rfl, hd, h⟩))

/-- What withFetchWord puts at the port. -/
@[simp] theorem withFetchWord_inbox (s : State) (nbits w : Nat) :
    (s.withFetchWord nbits w).inbox = .command (tableCommand nbits w) :: s.inbox := rfl

@[simp] theorem withFetchWord_config (s : State) (nbits w : Nat) : (s.withFetchWord nbits w).config = s.config := rfl

end Sys2Proof.Machine
end

