-- ==== Sys2Proof/Machine/Notation.lean ====
section
/-! DEFINITION. The spec's own spelling of commands and responses (30_encoding.md R84) and the pseudo-commands a host expands
(R85). No step reads any of this. -/

namespace Sys2Proof.Machine

/-- A hexadecimal digit, lower case. -/
def hexDigit (n : Nat) : Char := if n < 10 then Char.ofNat (48 + n) else Char.ofNat (87 + n)

/-- A two-digit hexadecimal byte (R84). -/
def hexByte (b : Byte) : List Char := [hexDigit (b.toNat / 16), hexDigit (b.toNat % 16)]

/-- A sequence of two-digit bytes in payload order (R84). -/
def hexBytes (bs : List Byte) : String := String.ofList ((bs.map hexByte).intersperse [' ']).flatten

/-- A 32-bit value, most significant digit first (R84). -/
def hex32 (w : Word) : String :=
  String.ofList ((List.range 8).map fun j => hexDigit ((w.toNat >>> (28 - 4 * j)) % 16))

/-- Bytes read as ASCII text, between double quotes (R84). -/
def asciiText (bs : List Byte) : String :=
  String.ofList ('\"' :: bs.map (fun b => Char.ofNat b.toNat) ++ ['\"'])

/-- A natural number in decimal digits, for a slot or a method id. -/
def decimal (n : Nat) : String := String.ofList (Nat.toDigits 10 n)

/-- An instruction in the textual syntax of R84, byte strings in their hexadecimal spelling. -/
def instrText : Instr → String
  | .resolve name => "RESOLVE  " ++ asciiText name
  | .create e m key nonce =>
      "CREATE   s" ++ decimal e.toNat ++ ", m" ++ decimal m.toNat ++ ", key=" ++ hexBytes key ++ ", nonce=" ++ hexBytes nonce
  | .update e data => "UPDATE   s" ++ decimal e.toNat ++ ", " ++ hexBytes data
  | .setiv e nonce => "SETIV    s" ++ decimal e.toNat ++ ", nonce=" ++ hexBytes nonce
  | .destroy e => "DESTROY  s" ++ decimal e.toNat
  | .rdstate e => "RDSTATE  s" ++ decimal e.toNat
  | .wrctr e lo hi => "WRCTR    s" ++ decimal e.toNat ++ ", lo=" ++ hex32 lo ++ ", hi=" ++ hex32 hi
  | .qround a b c d => "QROUND   a=" ++ hex32 a ++ ", b=" ++ hex32 b ++ ", c=" ++ hex32 c ++ ", d=" ++ hex32 d

/-- The status names (R77). -/
def statusName : Status → String
  | .ok => "OK"
  | .invalidParameter => "ERR_INVALID_PARAMETER"
  | .unsupportedMethod => "ERR_UNSUPPORTED_METHOD"
  | .noEngine => "ERR_NO_ENGINE"
  | .illegalCommand => "ERR_ILLEGAL_COMMAND"

/-- A response as R84 writes it: the status name, then the payload if there is one. -/
def responseText (st : Status) (q : List Byte) : String :=
  "-> " ++ statusName st ++ (if q.isEmpty then "" else " " ++ hexBytes q)

/-- The pseudo-commands of R85. -/
inductive Pseudo where
  | encrypt (slot : SlotIndex) (data : List Byte)
  | decrypt (slot : SlotIndex) (data : List Byte)
  | keystream (slot : SlotIndex) (n : Nat)
  | createn (slot : SlotIndex) (name key nonce : List Byte)
  | resync (slot : SlotIndex) (nonce : List Byte)
  deriving DecidableEq, Repr

/-- The first command the host issues for a pseudo-command (R85). -/
def pseudoFirst : Pseudo → Instr
  | .encrypt e data => .update e data
  | .decrypt e data => .update e data
  | .keystream e n => .update e (List.replicate n 0)
  | .createn _ name _ _ => .resolve name
  | .resync e nonce => .setiv e nonce

/-- The second command, once the first has its response: CREATEN goes on with a CREATE where RESOLVE answered OK, its method
id byte 0 of that answer, and stops otherwise; no other pseudo-command has one (R85). -/
def pseudoThen (p : Pseudo) (r : Response) : Option Instr :=
  match p with
  | .createn e _ key nonce =>
      if statusField r.status = statusCode .ok then some (.create e (r.payload.getD 0 0) key nonce) else none
  | .encrypt _ _ | .decrypt _ _ | .keystream _ _ | .resync _ _ => none

end Sys2Proof.Machine
end

