-- ==== Sys2Proof/Tests/Slice0.lean ====
section
/-! SUPPORT. Tests: ill-formed terms, words written out from the spec's encoding tables, single commands with results from
95_test_vectors.md, and for each obligation with hypotheses a state and operands that meet them. -/

namespace Sys2Proof.Tests.Slice0

open Sys2Proof Sys2Proof.Machine

/-! Helpers. -/

/-- The key of 32 zero bytes (K0 of 95_test_vectors.md). -/
def k0 : List Byte := List.replicate 32 0
/-- The nonces of 8 and 12 zero bytes (N8z, N12z). -/
def n8z : List Byte := List.replicate 8 0
def n12z : List Byte := List.replicate 12 0

/-- Key and nonce of V30 (f). -/
def k1 : List Byte := (List.range 32).map (BitVec.ofNat 8)
def nA : List Byte := (List.range 12).map fun j => BitVec.ofNat 8 (0xa0 + j)

/-- The keystream block V20. -/
def v20 : Vector Byte 64 :=
  #v[0x76, 0xb8, 0xe0, 0xad, 0xa0, 0xf1, 0x3d, 0x90, 0x40, 0x5d, 0x6a, 0xe5, 0x53, 0x86, 0xbd, 0x28,
     0xbd, 0xd2, 0x19, 0xb8, 0xa0, 0x8d, 0xed, 0x1a, 0xa8, 0x36, 0xef, 0xcc, 0x8b, 0x77, 0x0d, 0xc7,
     0xda, 0x41, 0x59, 0x7c, 0x51, 0x57, 0x48, 0x8d, 0x77, 0x24, 0xe0, 0x3f, 0xb8, 0xd8, 0x4a, 0x37,
     0x6a, 0x43, 0xb8, 0xf4, 0x15, 0x18, 0xa1, 0x1c, 0xc3, 0x87, 0xb6, 0x69, 0xb2, 0xee, 0x65, 0x86]

/-- The words of a slot with the zero key and nonce and a given counter. -/
def words0 (lo hi : Word) : Vector Word 16 :=
  #v[0x61707865, 0x3320646e, 0x79622d32, 0x6b206574, 0, 0, 0, 0, 0, 0, 0, 0, lo, hi, 0, 0]

/-- A slot with an engine: the zero key and nonce, counter 1, V20 in the buffer. -/
def engine (p : Phase) (cur : Fin 65) : Slot :=
  { phase := p, mid := 0, st := words0 1 0, buf := v20, cur := cur, draws := 0 }

/-- A unit of two slots, the first as given, the second UNINIT: with engine .init 0 the state E0 of V41. -/
def unitWith (sl : Slot) : State := { State.reset with slots := [sl, Slot.reset] }
def e0 : State := unitWith (engine .init 0)

/-- A unit with inputs at its port. -/
def atPort (s : State) (l : List Input) : State := { s with inbox := l }

/-- The last response of a result, and a slot after it. -/
def answer (r : Result) : Option (BitVec 32 × List Byte) :=
  match r with
  | .next t => t.outbox.getLast?.map fun q => (q.status, q.payload)
  | .fault _ => none
  | .refused _ => none
def slotAfter (r : Result) (e : SlotIndex) : Option Slot :=
  match r with
  | .next t => t.slot? e
  | .fault _ => none
  | .refused _ => none

def hello : List Byte := [0x68, 0x65, 0x6c, 0x6c, 0x6f]

/-! WellFormed refuses one ill-formed term per check, at the first value past the bound (R6, R73, R75, R79). -/

theorem test_wf_name : (Instr.resolve (List.replicate 65536 0)).wellFormed Config.default = false := by
  simp only [Instr.wellFormed, Instr.fits, List.length_replicate]; decide
theorem test_wf_key : (Instr.create 0 0 (List.replicate 256 0) n8z).wellFormed Config.default = false := by
  simp only [Instr.wellFormed, Instr.fits, List.length_replicate]; decide
theorem test_wf_nonce : (Instr.create 0 0 k0 (List.replicate 256 0)).wellFormed Config.default = false := by
  simp only [Instr.wellFormed, Instr.fits, List.length_replicate]; decide
theorem test_wf_data : (Instr.update 0 (List.replicate 65536 0)).wellFormed Config.default = false := by
  simp only [Instr.wellFormed, Instr.fits, List.length_replicate]; decide
theorem test_wf_setiv : (Instr.setiv 0 (List.replicate 65536 0)).wellFormed Config.default = false := by
  simp only [Instr.wellFormed, Instr.fits, List.length_replicate]; decide
theorem test_wf_slot : (Instr.destroy 2).wellFormed Config.default = false := by decide
theorem test_wf_debug :
    (Instr.rdstate 0).wellFormed { Config.default with debugEn := false } = false ∧
    (Instr.wrctr 0 0 0).wellFormed { Config.default with debugEn := false } = false ∧
    (Instr.qround 0 0 0 0).wellFormed { Config.default with debugEn := false } = false := by decide
theorem test_wf_accepts :
    (Instr.destroy 1).wellFormed Config.default = true ∧ (Instr.resolve []).wellFormed Config.default = true := by decide

/-! Decoding: words written out from R71, R72, R74 and V42, one per constructor. -/

-- OP 1, SLOT 0, METHOD 0, ARG 8: RESOLVE "chacha20" (V40).
theorem test_decode_resolve :
    decode Config.default ⟨0b0001_0000_00000000_0000000000001000, [0x63, 0x68, 0x61, 0x63, 0x68, 0x61, 0x32, 0x30]⟩
      = .ok (.resolve [0x63, 0x68, 0x61, 0x63, 0x68, 0x61, 0x32, 0x30]) := by rfl
-- OP 2, SLOT 1, METHOD 1, KLEN 3, NLEN 2: the lengths are checked by CREATE, not by the decoder (R75).
theorem test_decode_create :
    decode Config.default ⟨0b0010_0001_00000001_00000011_00000010, [1, 2, 3, 4, 5]⟩ = .ok (.create 1 1 [1, 2, 3] [4, 5]) := by rfl
-- OP 3, SLOT 1, METHOD 0, ARG 2.
theorem test_decode_update :
    decode Config.default ⟨0b0011_0001_00000000_0000000000000010, [7, 8]⟩ = .ok (.update 1 [7, 8]) := by rfl
-- OP 4, SLOT 0, METHOD 0, ARG 12.
theorem test_decode_setiv :
    decode Config.default ⟨0b0100_0000_00000000_0000000000001100, nA⟩ = .ok (.setiv 0 nA) := by rfl
-- OP 5, SLOT 1, METHOD 0, ARG 0.
theorem test_decode_destroy :
    decode Config.default ⟨0b0101_0001_00000000_0000000000000000, []⟩ = .ok (.destroy 1) := by rfl
-- OP 8, SLOT 1, METHOD 0, ARG 0.
theorem test_decode_rdstate :
    decode Config.default ⟨0b1000_0001_00000000_0000000000000000, []⟩ = .ok (.rdstate 1) := by rfl
-- OP 9, SLOT 0, METHOD 0, ARG 8; lo and hi little-endian (V43 step 5).
theorem test_decode_wrctr :
    decode Config.default ⟨0b1001_0000_00000000_0000000000001000, [0xfe, 0xff, 0xff, 0xff, 0x07, 0, 0, 0]⟩
      = .ok (.wrctr 0 0xfffffffe 7) := by rfl
-- OP 10, SLOT 0, METHOD 0, ARG 16; four words little-endian (V43 step 13).
theorem test_decode_qround :
    decode Config.default ⟨0b1010_0000_00000000_0000000000010000,
      [0x11, 0x11, 0x11, 0x11, 0x04, 0x03, 0x02, 0x01, 0x43, 0x6f, 0x8d, 0x9b, 0x67, 0x45, 0x23, 0x01]⟩
      = .ok (.qround 0x11111111 0x01020304 0x9b8d6f43 0x01234567) := by rfl

-- The encoder, against headers of V30 and V42.
theorem test_encode_headers :
    encodeHeader (.create 1 1 k1 nA) = 0x2101200c ∧ encodeHeader (.create 0 0 k0 n8z) = 0x20002008 ∧
    encodeHeader (.destroy 1) = 0x51000000 ∧ encodeHeader (.update 1 (List.replicate 14 0)) = 0x3100000e ∧
    encodeHeader (.wrctr 0 0 0) = 0x90000008 ∧ encodeHeader (.qround 0 0 0 0) = 0xa0000010 := by decide

-- The reason a header is rejected for is the first that holds, in the order (a) to (e) of R79 (V41 rows 1, 7, 10, 6).
theorem test_reject_reasons :
    checkHeader Config.default 0x00000000 = .error .reservedOpcode ∧
    checkHeader { Config.default with debugEn := false } 0x92010004 = .error .debugDisabled ∧
    checkHeader Config.default 0x30010001 = .error .mustBeZero ∧
    checkHeader Config.default 0x92000004 = .error .fixedArg ∧
    checkHeader Config.default 0x32000001 = .error .slotOutOfRange := by refine ⟨?_, ?_, ?_, ?_, ?_⟩ <;> rfl

-- A word of the opcode table: header bits 31 to 0, payload bytes above, here those of V43 step 13.
theorem test_table_word :
    decodeTableWord 160 0x012345679b8d6f430102030411111111a0000010
      = some (.qround 0x11111111 0x01020304 0x9b8d6f43 0x01234567) ∧
    decodeTableWord 32 0x5100000051000000 = some (.destroy 1) ∧ decodeTableWord 32 0x60000004 = none := by decide

-- The first step after reset runs the word placed by withFetchWord.
theorem test_fetch_word :
    (answer (step (State.reset.withFetchWord 32 0x51000000)) = some (0, [])) ∧
    answer (step (State.reset.withFetchWord 32 0x81000000)) = some (3, []) := by decide

/-! Word operations, the quarter round, the schedule (V1, V2, V3, V24). -/

theorem test_words :
    add32 0xffffffff 1 = 0 ∧ add32 0x11111111 0x01020304 = 0x12131415 ∧ xor32 0x01234567 0x12131415 = 0x13305172 ∧
    rotl32 0x12345678 16 = 0x56781234 ∧ rotl32 0x12345678 12 = 0x45678123 ∧
    rotl32 0x12345678 8 = 0x34567812 ∧ rotl32 0x12345678 7 = 0x1a2b3c09 := by decide
theorem test_quarter_round :
    quarterRound 0x11111111 0x01020304 0x9b8d6f43 0x01234567 = (0xea2a92f4, 0xcb1cf8ce, 0x4581472e, 0x5881c4bb) ∧
    quarterRound 0xffffffff 0xffffffff 0xffffffff 0xffffffff = (0xf0000ffd, 0x88790878, 0x0110fdef, 0x010ffdf0) := by
  decide
-- R123's example: the zero key after one double round.
theorem test_double_round :
    doubleRound (words0 0 0) = #v[0xe45fd249, 0x1bb820a6, 0xe31a88ea, 0xe667a9fe, 0x2a3bf673, 0x86bf4098, 0x460b500a,
      0xfa169886, 0x538dca0e, 0x0c439641, 0x00fa16bc, 0x8a08812a, 0x6bbf8b09, 0xc33013d6, 0xbb9f9849, 0x87c62165] := by
  decide +kernel
theorem test_counter :
    counterIncrement (words0 0xffffffff 5) = words0 0 6 ∧ counterIncrement (words0 0xffffffff 0xffffffff) = words0 0 0 ∧
    counterIncrement (words0 0 0xffffffff) = words0 1 0xffffffff ∧
    counterIncrement (words0 0xffffffff 0x03020100) = words0 0 0x03020101 := by decide

/-! The commands, one step each. -/

theorem test_resolve :
    answer (exec (.resolve [0x63, 0x68, 0x61, 0x63, 0x68, 0x61, 0x32, 0x30, 0x2d, 0x69, 0x65, 0x74, 0x66]) State.reset)
      = some (0x00030000, [0x01, 0x20, 0x0c]) := by decide
-- V40: a trailing space, a proper prefix, the empty name.
theorem test_resolve_unknown :
    answer (exec (.resolve [0x63, 0x68, 0x61, 0x63, 0x68, 0x61, 0x32, 0x30, 0x20]) State.reset) = some (2, []) ∧
    answer (exec (.resolve [0x63, 0x68, 0x61, 0x63, 0x68, 0x61, 0x32]) State.reset) = some (2, []) ∧
    answer (exec (.resolve []) State.reset) = some (2, []) := by decide

-- V30 (a): the whole slot after CREATE from reset.
theorem test_create : slotAfter (exec (.create 0 0 k0 n8z) State.reset) 0 = some (engine .init 0) := by decide +kernel
-- V41 rows 21, 23, 25, 27, 30: an error empties the slot, in the order method, lengths.
theorem test_create_errors :
    answer (exec (.create 0 7 k0 n8z) e0) = some (2, []) ∧
    answer (exec (.create 0 7 (List.replicate 16 0) (List.replicate 16 0)) e0) = some (2, []) ∧
    answer (exec (.create 0 0 (List.replicate 33 0) n8z) State.reset) = some (1, []) ∧
    answer (exec (.create 0 0 k0 []) State.reset) = some (1, []) ∧
    (slotAfter (exec (.create 0 0 k0 (List.replicate 16 0)) e0) 0).map Slot.phase = some .uninit := by decide

-- R150's example, and the exact fit that refills at once (V31 row A 64).
theorem test_update :
    answer (exec (.update 0 hello) e0) = some (0x00050000, [0x1e, 0xdd, 0x8c, 0xc1, 0xcf]) ∧
    slotAfter (exec (.update 0 hello) e0) 0 = some (engine .stream 5) := by decide
theorem test_update_refill :
    (slotAfter (exec (.update 0 (List.replicate 64 0)) e0) 0).map
      (fun sl => (sl.cur.val, sl.st, (sl.buf.toList.take 1))) = some (0, words0 2 0, [0x9f]) := by decide +kernel

-- V35: words, cursor, phase and the first bytes of the buffer.
theorem test_setiv :
    (slotAfter (exec (.setiv 0 nA) (unitWith { engine .stream 36 with
      st := #v[0x61707865, 0x3320646e, 0x79622d32, 0x6b206574, 0x03020100, 0x07060504, 0x0b0a0908, 0x0f0e0d0c,
        0x13121110, 0x17161514, 0x1b1a1918, 0x1f1e1d1c, 2, 0, 0x04030201, 0x08070605] })) 0).map
      (fun sl => (sl.phase, sl.cur.val, sl.st.toList.drop 12, sl.buf.toList.take 4))
      = some (.init, 0, [0x00000001, 0xa3a2a1a0, 0xa7a6a5a4, 0xabaaa9a8], [0xf7, 0xba, 0xf7, 0xe4]) := by decide +kernel
-- V41 rows 17, 31: the empty slot outranks the length; a bad length empties the slot.
theorem test_setiv_errors :
    answer (exec (.setiv 0 (List.replicate 10 0)) State.reset) = some (3, []) ∧
    answer (exec (.setiv 0 (List.replicate 10 0)) e0) = some (1, []) ∧
    (slotAfter (exec (.setiv 0 (List.replicate 10 0)) e0) 0).map Slot.phase = some .uninit := by decide

-- V38: DESTROY of an engine and of an empty slot both answer OK.
theorem test_destroy :
    answer (exec (.destroy 0) e0) = some (0, []) ∧ answer (exec (.destroy 1) e0) = some (0, []) ∧
    (slotAfter (exec (.destroy 0) e0) 0).map Slot.phase = some .uninit ∧
    slotAfter (exec (.destroy 1) e0) 1 = some Slot.reset := by decide

-- V43 step 4; V41 row 18.
theorem test_rdstate :
    answer (exec (.rdstate 0) (unitWith (engine .stream 5)))
      = some (0x00140000, [0x02, 0, 0x05, 0, 0x01, 0, 0, 0, 0, 0, 0, 0, 0, 0, 0, 0, 0, 0, 0, 0]) ∧
    answer (exec (.rdstate 0) State.reset) = some (3, []) := by decide

-- V43 step 5 with step 6.
theorem test_wrctr :
    slotAfter (exec (.wrctr 0 0xfffffffe 7) (unitWith (engine .stream 5))) 0
      = some { engine .stream 5 with st := words0 0xfffffffe 7 } := by decide

-- V43 steps 13 and 15.
theorem test_qround :
    answer (exec (.qround 0x11111111 0x01020304 0x9b8d6f43 0x01234567) State.reset)
      = some (0x00100000, [0xf4, 0x92, 0x2a, 0xea, 0xce, 0xf8, 0x1c, 0xcb, 0x2e, 0x47, 0x81, 0x45, 0xbb, 0xc4, 0x81, 0x58]) ∧
    answer (exec (.qround 0xffffffff 0xffffffff 0xffffffff 0xffffffff) State.reset)
      = some (0x00100000, [0xfd, 0x0f, 0x00, 0xf0, 0x78, 0x08, 0x79, 0x88, 0xef, 0xfd, 0x10, 0x01, 0xf0, 0xfd, 0x0f, 0x01]) := by
  decide

-- V41 rows 1, 2, 5, 6, 8 through the port: ERR_ILLEGAL_COMMAND, the slots as before.
theorem test_illegal :
    answer (step (atPort e0 [.command ⟨0x00000000, []⟩])) = some (4, []) ∧
    answer (step (atPort e0 [.command ⟨0x60000004, [0, 0, 0, 0]⟩])) = some (4, []) ∧
    answer (step (atPort e0 [.command ⟨0x32000001, [0]⟩])) = some (4, []) ∧
    answer (step (atPort e0 [.command ⟨0x50000001, []⟩])) = some (4, []) ∧
    slotAfter (step (atPort e0 [.command ⟨0x50000001, []⟩])) 0 = some (engine .init 0) := by decide

/-! The textual syntax and the pseudo-commands (R84, R85). -/

theorem test_text :
    instrText (.update 0 hello) = "UPDATE   s0, 68 65 6c 6c 6f" ∧ instrText (.destroy 1) = "DESTROY  s1" ∧
    instrText (.wrctr 0 0xffffffff 0) = "WRCTR    s0, lo=ffffffff, hi=00000000" ∧
    instrText (.resolve [0x63, 0x68, 0x61, 0x63, 0x68, 0x61, 0x32, 0x30]) = "RESOLVE  \"chacha20\"" := by decide
theorem test_pseudo :
    pseudoFirst (.keystream 1 3) = .update 1 [0, 0, 0] ∧ pseudoFirst (.resync 0 nA) = .setiv 0 nA ∧
    pseudoThen (.createn 1 [0x63] k1 nA) ⟨0x00030000, [0x01, 0x20, 0x0c]⟩ = some (.create 1 1 k1 nA) ∧
    pseudoThen (.createn 1 [0x63] k1 nA) ⟨0x00000002, []⟩ = none := by decide

/-! For each obligation with hypotheses: values that meet all of them, at the bounds of each clause. -/

theorem witness_ResetLeavesEverySlotEmpty :
    State.reset.slot? 0 = some Slot.reset ∧ State.reset.slot? 1 = some Slot.reset := by decide

theorem witness_ResetEventEmptiesEverySlot : (atPort e0 [.reset]).inbox = .reset :: [] := by decide

theorem witness_IdleUnitKeepsAllState : e0.inbox = [] := by decide

theorem witness_StepRunsTheDecodedCommand :
    ((atPort e0 [.command ⟨0x51000000, []⟩]).inbox = .command ⟨0x51000000, []⟩ :: [] ∧
      decode (atPort e0 [.command ⟨0x51000000, []⟩]).config ⟨0x51000000, []⟩ = .ok (.destroy 1)) ∧
    decode e0.config (tableCommand 32 0x51000000) = .ok (.destroy 1) := ⟨⟨rfl, rfl⟩, rfl⟩

-- One header for each disjunct of R79, each with its own payload length.
theorem witness_IllegalHeaderIsAnswered :
    (atPort e0 [.command ⟨0x50000001, []⟩]).inbox = .command ⟨0x50000001, []⟩ :: [] ∧
    (wellFormedCommand ⟨0x50000001, []⟩ = true ∧ IllegalByNumbers 2 true (0x50000001 : BitVec 32).toNat) ∧
    (wellFormedCommand ⟨0x00000000, []⟩ = true ∧ IllegalByNumbers 2 true (0x00000000 : BitVec 32).toNat) ∧
    (wellFormedCommand ⟨0xf0000001, [9]⟩ = true ∧ IllegalByNumbers 2 true (0xf0000001 : BitVec 32).toNat) ∧
    (wellFormedCommand ⟨0x80000000, []⟩ = true ∧ IllegalByNumbers 2 false (0x80000000 : BitVec 32).toNat) ∧
    (wellFormedCommand ⟨0x11000000, []⟩ = true ∧ IllegalByNumbers 2 true (0x11000000 : BitVec 32).toNat) ∧
    (wellFormedCommand ⟨0x30010000, []⟩ = true ∧ IllegalByNumbers 2 true (0x30010000 : BitVec 32).toNat) ∧
    (wellFormedCommand ⟨0x90000007, nA.take 7⟩ = true ∧ IllegalByNumbers 2 true (0x90000007 : BitVec 32).toNat) ∧
    (wellFormedCommand ⟨0xa000000c, nA⟩ = true ∧ IllegalByNumbers 2 true (0xa000000c : BitVec 32).toNat) ∧
    (wellFormedCommand ⟨0x52000000, []⟩ = true ∧ IllegalByNumbers 2 true (0x52000000 : BitVec 32).toNat) := by
  refine ⟨rfl, ?_, ?_, ?_, ?_, ?_, ?_, ?_, ?_, ?_⟩ <;> refine ⟨by decide, ?_⟩ <;> dsimp only [IllegalByNumbers] <;> decide

-- An illegal header, and a legal one at the last slot.
theorem witness_DecoderRejectsExactlyIllegalHeaders :
    wellFormedCommand ⟨0x52000000, []⟩ = true ∧ wellFormedCommand ⟨0x51000000, []⟩ = true := by decide

-- One byte short, one byte too many.
theorem witness_MalformedInputIsRefused :
    ((atPort e0 [.command ⟨0x30000001, []⟩]).inbox = .command ⟨0x30000001, []⟩ :: [] ∧
      ([] : List Byte).length ≠ plen 0x30000001) ∧ [(1 : Byte), 2].length ≠ plen 0x30000001 := by decide

theorem witness_DecodeOfEncodeIsTheInstruction :
    (Instr.resolve []).wellFormed Config.default = true ∧ (Instr.create 1 255 k1 nA).wellFormed Config.default = true ∧
    (Instr.create 0 0 (List.replicate 255 1) (List.replicate 255 2)).wellFormed Config.default = true ∧
    (Instr.update 1 hello).wellFormed Config.default = true ∧ (Instr.setiv 0 n8z).wellFormed Config.default = true ∧
    (Instr.destroy 1).wellFormed Config.default = true ∧ (Instr.rdstate 1).wellFormed Config.default = true ∧
    (Instr.wrctr 0 0xffffffff 1).wellFormed Config.default = true ∧
    (Instr.qround 1 2 3 4).wellFormed Config.default = true := by decide +kernel

-- The longest data of one command.
theorem witness_DecodeOfEncodeIsTheInstruction_longest :
    (Instr.update 0 (List.replicate 65535 0)).wellFormed Config.default = true := by
  simp only [Instr.wellFormed, Instr.fits, List.length_replicate]; decide

theorem witness_AcceptedCommandsAreEncodings :
    decode Config.default ⟨0x20ff0003, [1, 2, 3]⟩ = .ok (.create 0 255 [] [1, 2, 3]) := by rfl

theorem witness_EveryCommandGetsOneResponse :
    (atPort e0 [.command ⟨0x51000000, []⟩]).inbox = .command ⟨0x51000000, []⟩ :: [] ∧
    wellFormedCommand ⟨0x51000000, []⟩ = true ∧
    registryLegal (atPort e0 [.command ⟨0x51000000, []⟩]).registry = true := by decide

theorem witness_StatusWordLayout : 0 < 65536 ∧ 65535 < 65536 := by decide

theorem e0_inv : State.Inv e0 := by
  refine ⟨by decide, ?_⟩
  simp only [e0, unitWith, List.mem_cons, List.not_mem_nil, or_false]
  rintro sl (rfl | rfl) <;> intro _
  · exact ⟨by decide, by decide⟩
  · contradiction

theorem witness_StepKeepsTheInvariant :
    State.Inv (atPort e0 [.command ⟨0x30000005, hello⟩]) ∧
    ∃ t, step (atPort e0 [.command ⟨0x30000005, hello⟩]) = .next t := ⟨e0_inv, _, rfl⟩

theorem witness_ConfigurationNeverChanges : ∃ t, step (atPort e0 [.command ⟨0x51000000, []⟩]) = .next t := ⟨_, rfl⟩

-- The addressed slot 0, the other slot 1, and a command without a slot.
theorem witness_OnlyTheAddressedSlotChanges :
    (∃ t, exec (.destroy 0) e0 = .next t) ∧ (∀ e, (Instr.destroy 0).slot? = some e → 1 ≠ e.toNat) ∧
    (∃ t, exec (.qround 1 2 3 4) e0 = .next t) ∧ ∀ e, (Instr.qround 1 2 3 4).slot? = some e → 0 ≠ e.toNat := by
  refine ⟨⟨_, rfl⟩, ?_, ⟨_, rfl⟩, ?_⟩ <;> intro e h <;> cases h
  decide

theorem witness_QueriesChangeNoState :
    (∃ t, exec (.resolve []) e0 = .next t) ∧ (∃ t, exec (.rdstate 0) e0 = .next t) ∧
    ∃ t, exec (.qround 1 2 3 4) e0 = .next t := ⟨⟨_, rfl⟩, ⟨_, rfl⟩, ⟨_, rfl⟩⟩

theorem witness_KeyIsImmutable :
    ∃ t, exec (.update 0 hello) e0 = .next t ∧ (∀ m key nonce, Instr.update 0 hello ≠ .create 0 m key nonce) ∧
      e0.slot? 0 = some (engine .init 0) ∧ t.slot? 0 = some (engine .stream 5) ∧
      (engine .init 0).phase ≠ .uninit ∧ (engine .stream 5).phase ≠ .uninit :=
  ⟨_, rfl, by intro _ _ _; exact Instr.noConfusion, by decide, by decide, by decide, by decide⟩

theorem witness_StatusesByCommand : (∃ t, exec (.update 1 hello) e0 = .next t) ∧ ∃ t, exec (.create 0 7 [] []) e0 = .next t :=
  ⟨⟨_, rfl⟩, ⟨_, rfl⟩⟩

theorem witness_PhaseFollowsTheLifecycle :
    (Instr.setiv 0 []).slot? = some 0 ∧ e0.slot? 0 = some (engine .init 0) ∧ ∃ t, exec (.setiv 0 []) e0 = .next t :=
  ⟨rfl, by decide, _, rfl⟩

theorem witness_CommandsToDifferentSlotsCommute :
    (∀ e, (Instr.update 0 hello).slot? = some e → (Instr.destroy 1).slot? ≠ some e) ∧
    ∃ t u, exec (.update 0 hello) e0 = .next t ∧ exec (.destroy 1) t = .next u := by
  refine ⟨?_, _, _, rfl, rfl⟩
  intro e h; cases h; decide

-- Two states that differ in what their second slot, UNINIT, holds.
theorem witness_EmptySlotContentsAreUnobservable :
    StateAgrees e0 { e0 with slots := [engine .init 0, { engine .uninit 7 with mid := 9 }] } := by
  refine ⟨rfl, rfl, rfl, rfl, ?_⟩
  refine .cons ⟨rfl, fun _ => ⟨rfl, rfl, rfl, rfl⟩⟩ (.cons ⟨rfl, fun h => absurd rfl h⟩ .nil)

-- Two engines with other keys and buffers.
theorem witness_KeyIsNeverReported :
    (∀ e' data, Instr.rdstate 0 ≠ .update e' data) ∧
    SlotReportAgrees (engine .init 0) { engine .init 0 with st := (words0 1 0).set 4 5, buf := Vector.replicate 64 1 } ∧
    ∃ t, exec (.rdstate 0) (e0.setSlot 0 (engine .init 0)) = .next t := by
  refine ⟨by intro _ _; exact Instr.noConfusion, ⟨rfl, rfl, rfl, by decide⟩, _, rfl⟩

theorem witness_UnadmittedCommandIsIllegal :
    (Instr.destroy 2).allowed e0.config = false ∧
    (Instr.qround 1 2 3 4).allowed ({ e0 with debugEn := false } : State).config = false := by decide

theorem witness_WordOperationsAreModularAndBitwise :
    (0 < 1 ∧ 1 < 32 ∧ 31 < 32) ∧ 0 < 31 ∧ 31 < 32 ∧ 0 < 32 := by decide

theorem witness_PermuteRunsTheSchedule :
    (0, 4, 8, 12) ∈ columnGroups ++ diagonalGroups ∧ (3, 4, 9, 14) ∈ columnGroups ++ diagonalGroups ∧
    ((1 : Fin 16) ≠ 0 ∧ (1 : Fin 16) ≠ 4 ∧ (1 : Fin 16) ≠ 8 ∧ (1 : Fin 16) ≠ 12) := by decide

theorem witness_LanesOfAHalfCommute :
    columnGroups.reverse.Perm columnGroups ∧ diagonalGroups.reverse.Perm diagonalGroups :=
  ⟨List.reverse_perm _, List.reverse_perm _⟩

theorem witness_KeystreamBlockIsTheSerializedSum : 0 < 64 ∧ 63 < 64 := by decide

-- Words 11 and 14, the neighbours of the counter.
theorem witness_CounterIncrementCarriesIntoWord13 :
    ((11 : Fin 16).val ≠ 12 ∧ (11 : Fin 16).val ≠ 13) ∧ (14 : Fin 16).val ≠ 12 ∧ (14 : Fin 16).val ≠ 13 := by decide
theorem witness_CounterCountsBlocks :
    ((0 : Fin 16).val ≠ 12 ∧ (0 : Fin 16).val ≠ 13) ∧ (15 : Fin 16).val ≠ 12 ∧ (15 : Fin 16).val ≠ 13 := by decide
theorem witness_BlockRefillsAndAdvances :
    ((11 : Fin 16).val ≠ 12 ∧ (11 : Fin 16).val ≠ 13) ∧ (14 : Fin 16).val ≠ 12 ∧ (14 : Fin 16).val ≠ 13 := by decide

theorem witness_ClassicCounterWraps : 0 % 2 ^ 64 = 0 ∧ 2 ^ 64 % 2 ^ 64 = 0 := by decide

theorem witness_CarryReachesTheNonceWord : (words0 0 7)[12] = 0 ∧ 0 < 2 ^ 32 ∧ 2 ^ 32 - 1 < 2 ^ 32 := by decide

theorem witness_KeyAndNonceFillTheWords :
    (k1.length = 32 ∧ (n8z.length = 8 ∨ n8z.length = 12)) ∧ (nA.length = 8 ∨ nA.length = 12) ∧
    n8z.length = 8 ∧ nA.length = 12 := by decide

-- Each clause: unknown method; key one short, one long; nonce 7, 9, 11, 13; both layouts.
theorem witness_CreateConstructsOrEmptiesTheSlot :
    e0.slot? 0 = some (engine .init 0) ∧ lookupId e0.registry 2 = none ∧ lookupId e0.registry 255 = none ∧
    lookupId e0.registry 0 = some descriptorClassic ∧ lookupId e0.registry 1 = some descriptorIetf ∧
    (k1.take 31).length ≠ descriptorClassic.keyLen.toNat ∧ (k1 ++ [0]).length ≠ descriptorClassic.keyLen.toNat ∧
    ((n8z.take 7).length ≠ 8 ∧ (n8z.take 7).length ≠ 12) ∧ ((nA.take 9).length ≠ 8 ∧ (nA.take 9).length ≠ 12) ∧
    ((nA.take 11).length ≠ 8 ∧ (nA.take 11).length ≠ 12) ∧ ((nA ++ [0]).length ≠ 8 ∧ (nA ++ [0]).length ≠ 12) ∧
    (k1.length = descriptorClassic.keyLen.toNat ∧ k1.length = 32 ∧ (n8z.length = 8 ∨ n8z.length = 12)) ∧
    (k1.length = descriptorIetf.keyLen.toNat ∧ k1.length = 32 ∧ (nA.length = 8 ∨ nA.length = 12)) := by decide

theorem witness_CreateAndSetivStartAtPositionZero :
    (State.reset.slot? 1 = some Slot.reset ∧ lookupId State.reset.registry 1 = some descriptorIetf ∧
      k1.length = descriptorIetf.keyLen.toNat ∧ k1.length = 32 ∧ (nA.length = 8 ∨ nA.length = 12)) ∧
    e0.slot? 0 = some (engine .init 0) ∧ (engine .init 0).phase ≠ .uninit ∧ (n8z.length = 8 ∨ n8z.length = 12) := by decide

theorem witness_SetivRekeysOrEmptiesTheSlot :
    e0.slot? 0 = some (engine .init 0) ∧ (engine .init 0).phase ≠ .uninit ∧
    (n8z.length = 8 ∨ n8z.length = 12) ∧ (nA.length = 8 ∨ nA.length = 12) ∧
    ((n8z.take 7).length ≠ 8 ∧ (n8z.take 7).length ≠ 12) ∧ ((nA.take 9).length ≠ 8 ∧ (nA.take 9).length ≠ 12) ∧
    ((nA.take 11).length ≠ 8 ∧ (nA.take 11).length ≠ 12) ∧ ((nA ++ [0]).length ≠ 8 ∧ (nA ++ [0]).length ≠ 12) := by decide

-- A used engine with the zero key, and a CREATE with it in a unit after reset.
theorem witness_ResyncEqualsAFreshEngine :
    (unitWith (engine .stream 36)).slot? 0 = some (engine .stream 36) ∧ (engine .stream 36).phase ≠ .uninit ∧
    (∀ k : Fin 12, (engine .stream 36).st[k.val] = (streamStart k0 nA)[k.val]) ∧
    (nA.length = 8 ∨ nA.length = 12) ∧ State.reset.slot? 1 = some Slot.reset ∧
    lookupId State.reset.registry 1 = some descriptorIetf ∧ k0.length = descriptorIetf.keyLen.toNat ∧ k0.length = 32 := by
  decide

theorem witness_DestroyEmptiesTheSlot :
    e0.slot? 0 = some (engine .init 0) ∧ e0.slot? 1 = some Slot.reset ∧ Slot.reset.phase = .uninit := by decide

theorem witness_EmptySlotAnswersNoEngine :
    e0.slot? 1 = some Slot.reset ∧ Slot.reset.phase = .uninit ∧ e0.debugEn = true := by decide

-- The cursor at 0, 63 and 64.
theorem witness_UpdateRefillsAndMovesTheCursor :
    (e0.slot? 0 = some (engine .init 0) ∧ (engine .init 0).phase ≠ .uninit) ∧
    ((unitWith (engine .stream 63)).slot? 0 = some (engine .stream 63) ∧ (engine .stream 63).phase ≠ .uninit) ∧
    (unitWith (engine .stream 64)).slot? 0 = some (engine .stream 64) ∧ (engine .stream 64).phase ≠ .uninit := by decide

-- The last byte from the buffer, the first from a new block.
theorem witness_UpdateXorsBufferThenBlocks :
    (unitWith (engine .stream 63)).slot? 0 = some (engine .stream 63) ∧ (engine .stream 63).phase ≠ .uninit ∧
    (0 < hello.length ∧ (engine .stream 63).cur.val + 0 < 64) ∧
    1 < hello.length ∧ ¬ (engine .stream 63).cur.val + 1 < 64 := by decide

theorem engine_streamAt : StreamAt (streamStart k0 n8z) 5 (engine .stream 5) :=
  ⟨by decide +kernel, by decide +kernel, by decide⟩

theorem e0_streamAt : StreamAt (streamStart k0 n8z) 0 (engine .init 0) := ⟨by decide +kernel, by decide +kernel, by decide⟩

theorem witness_UpdatesFollowTheKeystream :
    (unitWith (engine .stream 5)).slot? 0 = some (engine .stream 5) ∧ (engine .stream 5).phase ≠ .uninit ∧
    StreamAt (streamStart k0 n8z) 5 (engine .stream 5) ∧ 4 < [hello, []].flatten.length :=
  ⟨by decide, by decide, engine_streamAt, by decide⟩

theorem witness_ChunkingIsInvisible :
    e0.slot? 0 = some (engine .init 0) ∧ (engine .init 0).phase ≠ .uninit ∧ [hello, [], hello] ≠ [] := by decide

-- "hello" in one piece on one side, its ciphertext in two on the other.
theorem witness_DecryptionInvertsEncryption :
    (e0.slot? 0 = some (engine .init 0) ∧ (engine .init 0).phase ≠ .uninit ∧
      StreamAt (streamStart k0 n8z) 0 (engine .init 0)) ∧
    (∃ t, runUpdates 0 [hello] e0 = some (t, [0x1e, 0xdd, 0x8c, 0xc1, 0xcf])) ∧
    [[(0x1e : Byte), 0xdd], [0x8c, 0xc1, 0xcf]].flatten = [0x1e, 0xdd, 0x8c, 0xc1, 0xcf] :=
  ⟨⟨by decide, by decide, e0_streamAt⟩, ⟨_, rfl⟩, rfl⟩

theorem witness_EmptyUpdateOnlyMarksTheSlot :
    (e0.slot? 0 = some (engine .init 0) ∧ (engine .init 0).phase ≠ .uninit ∧ (engine .init 0).cur.val ≤ 63) ∧
    (unitWith (engine .stream 63)).slot? 0 = some (engine .stream 63) ∧ (engine .stream 63).phase ≠ .uninit ∧
    (engine .stream 63).cur.val ≤ 63 := by decide

-- Two engines at cursor 5 whose buffers differ in byte 4.
theorem witness_ConsumedBytesAreNeverRead :
    (e0.slot? 0).isSome = true ∧ (engine .stream 5).phase ≠ .uninit ∧
    (∀ j : Fin 64, (engine .stream 5).cur.val ≤ j.val → (v20.set 4 0)[j.val] = (engine .stream 5).buf[j.val]) ∧
    (v20.set 4 0)[4] ≠ (engine .stream 5).buf[4] := by decide

theorem witness_RdstateReportsTheSlot :
    e0.debugEn = true ∧ (e0.slot? 0 = some (engine .init 0) ∧ (engine .init 0).phase ≠ .uninit) ∧
    (unitWith (engine .stream 63)).slot? 0 = some (engine .stream 63) ∧ (engine .stream 63).phase ≠ .uninit := by decide

theorem witness_WrctrWritesTheCounterOnly :
    e0.debugEn = true ∧ e0.slot? 0 = some (engine .init 0) ∧ (engine .init 0).phase ≠ .uninit := by decide

-- What is left of the buffer: 59 bytes from cursor 5, 64 from 0, none from 64.
theorem witness_WrctrTakesEffectAtTheNextRefill :
    ((unitWith (engine .stream 5)).debugEn = true ∧ (unitWith (engine .stream 5)).slot? 0 = some (engine .stream 5) ∧
      (engine .stream 5).phase ≠ .uninit ∧ (∃ t, exec (.wrctr 0 1 2) (unitWith (engine .stream 5)) = .next t) ∧
      (List.replicate 59 (0 : Byte)).length = 64 - (engine .stream 5).cur.val) ∧
    (List.replicate 64 (0 : Byte)).length = 64 - (engine .init 0).cur.val ∧
    ([] : List Byte).length = 64 - (engine .stream 64).cur.val :=
  ⟨⟨by decide, by decide, by decide, ⟨_, rfl⟩, by decide⟩, by decide, by decide⟩

theorem witness_QroundReturnsTheQuarterRound :
    State.reset.debugEn = true ∧
    quarterRound 0x11111111 0x01020304 0x9b8d6f43 0x01234567 = (0xea2a92f4, 0xcb1cf8ce, 0x4581472e, 0x5881c4bb) := by decide

theorem witness_ResolveAnswersFromTheRegistry :
    lookupName State.reset.registry [] = none ∧ lookupName State.reset.registry descriptorIetf.name = some descriptorIetf := by
  decide

theorem witness_LookupsFindExactlyTheDescriptor : registryLegal State.reset.registry = true := by decide

theorem witness_DefaultRegistryAnswers : 2 ≤ (2 : MethodId).toNat ∧ 2 ≤ (255 : MethodId).toNat := by decide

end Sys2Proof.Tests.Slice0
end

section
/-! SUPPORT. What a command may leave in the slot it addresses, as one relation: the invariant (R39), the frame (R20) and the
key's immutability (R22) are read off it. -/

namespace Sys2Proof.Machine

/-- Instruction i may leave slot contents b where it found a: one of the four writes of R145, R150, R160, R188, or a slot that is
UNINIT. -/
inductive SlotWrite : Instr → Slot → Slot → Prop where
  | created (e : SlotIndex) (m : MethodId) (key nonce : List Byte) (a : Slot) :
      SlotWrite (.create e m key nonce) a (createdSlot a m key nonce)
  | streamed (e : SlotIndex) (data : List Byte) (a : Slot) (live : a.phase ≠ .uninit) :
      SlotWrite (.update e data) a (streamedSlot a data)
  | resynced (e : SlotIndex) (nonce : List Byte) (a : Slot) (live : a.phase ≠ .uninit) :
      SlotWrite (.setiv e nonce) a (resyncedSlot a nonce)
  | counterSet (e : SlotIndex) (lo hi : Word) (a : Slot) (live : a.phase ≠ .uninit) :
      SlotWrite (.wrctr e lo hi) a { a with st := (a.st.set 12 lo).set 13 hi }
  | emptied (i : Instr) (a b : Slot) (empty : b.phase = .uninit) : SlotWrite i a b

/-- exec_next_cases with the written slot as a value: a command leaves one response, and at most one slot written. -/
theorem exec_next_write {i : Instr} {s t : State} (h : exec i s = .next t) :
    ∃ st q, t = s.respond st q ∨
      ∃ e a b, i.slot? = some e ∧ s.slot? e = some a ∧ SlotWrite i a b ∧ t = (s.setSlot e b).respond st q := by
  obtain ⟨st, q, -, rfl, -⟩ | ⟨e, a, he, ha, hw⟩ := exec_next_cases h
  · exact ⟨st, q, .inl rfl⟩
  · obtain ⟨m, key, nonce, rfl, -, -, rfl⟩ | ⟨data, rfl, hp, rfl⟩ | ⟨nonce, rfl, hp, -, rfl⟩ | ⟨lo, hi, rfl, hp, rfl⟩ |
      ⟨st, -, -, rfl⟩ := hw
    · exact ⟨_, _, .inr ⟨e, a, _, he, ha, .created e m key nonce a, rfl⟩⟩
    · exact ⟨_, _, .inr ⟨e, a, _, he, ha, .streamed e data a hp, rfl⟩⟩
    · exact ⟨_, _, .inr ⟨e, a, _, he, ha, .resynced e nonce a hp, rfl⟩⟩
    · exact ⟨_, _, .inr ⟨e, a, _, he, ha, .counterSet e lo hi a hp, rfl⟩⟩
    · exact ⟨_, _, .inr ⟨e, a, _, he, ha, .emptied i a _ (freedSlot_phase _ _), rfl⟩⟩

/-! Words 0 to 11 under each write (R22, R23, R129). -/

theorem streamStart_sigma (key nonce : List Byte) (i : Fin 4) : (streamStart key nonce)[i.val] = sigma[i.val] := by
  rw [streamStart, setNonce_other _ _ _ (by omega)]
  fin_cases i <;> rfl

theorem createdSlot_st_sigma (a : Slot) (m : MethodId) (key nonce : List Byte) (i : Fin 4) :
    (createdSlot a m key nonce).st[i.val] = sigma[i.val] := by
  simp only [createdSlot_st]
  rw [counterIncrement_other _ _ _ (by omega) (by omega), streamStart_sigma]

theorem resyncedSlot_st_lt12 (a : Slot) (nonce : List Byte) (k : Nat) (hk : k < 12) :
    (resyncedSlot a nonce).st[k] = a.st[k] := by
  simp only [resyncedSlot_st]
  rw [counterIncrement_other _ _ _ (by omega) (by omega), setNonce_other _ _ _ hk]

theorem streamedSlot_st_lt12 (a : Slot) (data : List Byte) (k : Nat) (hk : k < 12) :
    (streamedSlot a data).st[k] = a.st[k] :=
  streamSlot_st_other a data k (by omega) (by omega) (by omega)

theorem setCounter_lt12 (st : Vector Word 16) (lo hi : Word) (k : Nat) (hk : k < 12) :
    ((st.set 12 lo).set 13 hi)[k] = st[k] := by
  rw [Vector.getElem_set_ne _ _ (by omega), Vector.getElem_set_ne _ _ (by omega)]

/-- A write by anything but CREATE that leaves an engine leaves its method id and words 0 to 11. -/
theorem SlotWrite.key_kept {i : Instr} {a b : Slot} (h : SlotWrite i a b) (hcreate : ∀ e m key nonce, i ≠ .create e m key nonce)
    (hb : b.phase ≠ .uninit) : b.mid = a.mid ∧ ∀ k : Fin 12, b.st[k.val] = a.st[k.val] := by
  cases h with
  | created e m key nonce => exact absurd rfl (hcreate e m key nonce)
  | streamed e data => exact ⟨streamSlot_mid a data, fun k => streamedSlot_st_lt12 a data k k.isLt⟩
  | resynced e nonce => exact ⟨rfl, fun k => resyncedSlot_st_lt12 a nonce k k.isLt⟩
  | counterSet e lo hi => exact ⟨rfl, fun k => setCounter_lt12 a.st lo hi k k.isLt⟩
  | emptied _ _ _ empty => exact absurd empty hb

/-! The invariant (R39). -/

theorem slotInv_of_uninit {sl : Slot} (h : sl.phase = .uninit) : SlotInv sl := fun hp => absurd h hp

/-- Every write keeps SlotInv: CREATE writes SIGMA, the others keep it; each of the three refilling commands leaves the cursor
below 64, WRCTR leaves it where it was. -/
theorem SlotWrite.slotInv {i : Instr} {a b : Slot} (h : SlotWrite i a b) (ha : SlotInv a) : SlotInv b := by
  cases h with
  | created e m key nonce => exact fun _ => ⟨createdSlot_st_sigma a m key nonce, by simp⟩
  | streamed e data _ live =>
    obtain ⟨hsigma, -⟩ := ha live
    exact fun _ => ⟨fun k => (streamedSlot_st_lt12 a data k (by omega)).trans (hsigma k),
      Nat.le_of_lt_succ (streamSlot_cur_lt a data)⟩
  | resynced e nonce _ live =>
    obtain ⟨hsigma, -⟩ := ha live
    exact fun _ => ⟨fun k => (resyncedSlot_st_lt12 a nonce k (by omega)).trans (hsigma k), by simp⟩
  | counterSet e lo hi _ live =>
    obtain ⟨hsigma, hcur⟩ := ha live
    exact fun _ => ⟨fun k => (setCounter_lt12 a.st lo hi k (by omega)).trans (hsigma k), hcur⟩
  | emptied _ _ _ empty => exact slotInv_of_uninit empty

theorem inv_setSlot {s : State} (h : s.Inv) (e : SlotIndex) {sl : Slot} (hsl : SlotInv sl) : (s.setSlot e sl).Inv := by
  obtain ⟨hlegal, hslots⟩ := h
  refine ⟨by simpa [State.config] using hlegal, fun x hx => ?_⟩
  obtain hx | rfl := List.mem_or_eq_of_mem_set hx
  · exact hslots x hx
  · exact hsl

theorem inv_resetEvent {s : State} (h : s.Inv) : (resetEvent s).Inv := by
  obtain ⟨hlegal, -⟩ := h
  refine ⟨by simpa [State.config, resetEvent] using hlegal, fun x hx => ?_⟩
  obtain ⟨e, he, rfl⟩ := List.mem_mapIdx.mp hx
  exact slotInv_of_uninit rfl

theorem exec_keeps_inv {i : Instr} {s t : State} (hs : s.Inv) (h : exec i s = .next t) : t.Inv := by
  obtain ⟨st, q, rfl | ⟨e, a, b, -, ha, hw, rfl⟩⟩ := exec_next_write h
  · exact hs
  · have ⟨_, hslots⟩ := hs
    exact inv_setSlot hs e (hw.slotInv (hslots a (slot?_mem ha)))

/-- After reset every slot is Slot.reset (R36). -/
theorem reset_slots_uninit {sl : Slot} (h : sl ∈ State.reset.slots) : sl.phase = .uninit := by
  obtain ⟨-, rfl⟩ := List.mem_replicate.mp h
  rfl

/-- Settles O15: a step leaves the unit alone, empties every slot, answers an illegal header, or runs one command, whose write
keeps SlotInv. -/
theorem stepKeepsTheInvariant : Obligations.StepKeepsTheInvariant := by
  intro s t hs h
  obtain ⟨-, rfl⟩ | ⟨rest, -, rfl⟩ | ⟨c, rest, r, -, -, rfl⟩ | ⟨c, rest, i, -, -, hx⟩ := step_next_cases h
  · exact hs
  · exact inv_resetEvent (s := { s with inbox := rest }) hs
  · exact hs
  · exact exec_keeps_inv (s := { s with inbox := rest }) hs hx

/-- Settles O17: the one slot a command may write is the one it addresses. -/
theorem onlyTheAddressedSlotChanges : Obligations.OnlyTheAddressedSlotChanges := by
  intro i s t h
  obtain ⟨st, q, rfl | ⟨e, a, b, he, -, -, rfl⟩⟩ := exec_next_write h
  · exact ⟨rfl, rfl, rfl, rfl, fun _ _ => rfl, _, rfl⟩
  · obtain ⟨hreg, hdebug, hinbox, hlen, hslots⟩ := onlySlotChanged_setSlot s e b st q
    exact ⟨hreg, hdebug, hinbox, hlen, fun j hj => hslots j (hj e he), _, rfl⟩

/-- Settles O19: an unwritten slot is as it was, and a write by anything but CREATE keeps the method id and words 0 to 11. -/
theorem keyIsImmutable : Obligations.KeyIsImmutable := by
  intro i s t e a b h hi ha hb _ hpb
  obtain ⟨st, q, rfl | ⟨e', a', b', he, ha', hw, rfl⟩⟩ := exec_next_write h
  · obtain rfl : a = b := Option.some.inj (ha.symm.trans hb)
    exact ⟨rfl, fun _ => rfl⟩
  · rw [slot?_respond] at hb
    by_cases hee : e = e'
    · subst hee
      obtain rfl : a' = a := Option.some.inj (ha'.symm.trans ha)
      obtain rfl : b' = b := Option.some.inj ((slot?_setSlot_self ha b').symm.trans hb)
      refine hw.key_kept ?_ hpb
      rintro e'' m key nonce rfl
      obtain rfl : e'' = e := Option.some.inj he
      exact hi m key nonce rfl
    · rw [slot?_setSlot_ne s hee, ha] at hb
      obtain rfl : a = b := Option.some.inj hb
      exact ⟨rfl, fun _ => rfl⟩

/-- Settles O1: every slot of State.reset is UNINIT. -/
theorem resetLeavesEverySlotEmpty : Obligations.ResetLeavesEverySlotEmpty :=
  fun _ _ h => reset_slots_uninit (slot?_mem h)

/-- Settles O14: the default configuration is legal, and SlotInv asks nothing of an UNINIT slot. -/
theorem invariantHoldsAtReset : Obligations.InvariantHoldsAtReset :=
  ⟨by decide, fun _ h => slotInv_of_uninit (reset_slots_uninit h)⟩

end Sys2Proof.Machine
end

section
/-! SUPPORT. The counter over many increments (R40), position 0 of a keystream (R31), and the known vector V20. -/

namespace Sys2Proof.Machine

/-- Words 12 and 13 as one number, word 12 the low half (R40). -/
def counterValue (st : Vector Word 16) : Nat := st[12].toNat + 2 ^ 32 * st[13].toNat

theorem counterValue_increment (st : Vector Word 16) :
    counterValue (counterIncrement st) = (counterValue st + 1) % 2 ^ 64 := by
  simp only [counterValue, counterIncrement_word12, counterIncrement_word13]
  split <;> bv_omega

theorem counterValue_counterAfter (g : Nat) (st : Vector Word 16) :
    counterValue (counterAfter g st) = (counterValue st + g) % 2 ^ 64 := by
  induction g with
  | zero => simp only [counterValue, counterAfter]; omega
  | succ g ih => rw [counterAfter, counterValue_increment, ih, Nat.mod_add_mod, Nat.add_assoc]

theorem word12_toNat (st : Vector Word 16) : st[12].toNat = counterValue st % 2 ^ 32 := by
  rw [counterValue, Nat.add_mul_mod_self_left, Nat.mod_eq_of_lt st[12].isLt]

/-- Settles O35, by induction on the increments for the pair of words; word 12 is the pair's low half. -/
theorem counterCountsBlocks : Obligations.CounterCountsBlocks := by
  intro g st
  have hpair := counterValue_counterAfter g st
  refine ⟨hpair, ?_, fun i h12 h13 => counterAfter_other g st i i.isLt h12 h13⟩
  rw [word12_toNat, hpair, word12_toNat, Nat.mod_mod_of_dvd _ (by decide), Nat.mod_add_mod]

/-- What BLOCK leaves is position 0 of the keystream that starts from the words it read (R31). -/
theorem streamAt_zero {s1 : Vector Word 16} {sl : Slot} (hst : sl.st = counterIncrement s1)
    (hbuf : sl.buf = keystreamBlock s1) (hcur : sl.cur = 0) : StreamAt s1 0 sl :=
  ⟨hst, hbuf, by rw [hcur]; rfl⟩

theorem execCreate_ok {s : State} {e : SlotIndex} {sl : Slot} {m : MethodId} {d : Descriptor} {key nonce : List Byte}
    (hs : s.slot? e = some sl) (hm : lookupId s.registry m = some d) (hkey : key.length = d.keyLen.toNat)
    (h32 : key.length = 32) (hnonce : nonce.length = 8 ∨ nonce.length = 12) :
    execCreate e m key nonce s = .next ((s.setSlot e (createdSlot sl m key nonce)).respond .ok []) := by
  rw [execCreate_eq hs, hm]
  simp [← hkey, h32, hnonce]

theorem execSetiv_ok {s : State} {e : SlotIndex} {sl : Slot} {nonce : List Byte} (hs : s.slot? e = some sl)
    (hp : sl.phase ≠ .uninit) (hnonce : nonce.length = 8 ∨ nonce.length = 12) :
    execSetiv e nonce s = .next ((s.setSlot e (resyncedSlot sl nonce)).respond .ok []) := by
  rw [execSetiv_eq hs hp, if_pos hnonce]

/-- Settles O42: both commands end in a BLOCK from the words SETNONCE left. -/
theorem createAndSetivStartAtPositionZero : Obligations.CreateAndSetivStartAtPositionZero := by
  refine ⟨fun s e sl m d key nonce hs hm hkey h32 hnonce => ?_, fun s e sl nonce hs hp hnonce => ?_⟩
  · exact ⟨_, _, execCreate_ok hs hm hkey h32 hnonce, slot?_setSlot_self hs _,
      streamAt_zero (createdSlot_st sl m key nonce) (createdSlot_buf sl m key nonce) rfl⟩
  · exact ⟨_, _, execSetiv_ok hs hp hnonce, slot?_setSlot_self hs _, streamAt_zero rfl rfl rfl⟩

/-- Settles O39, by evaluating the block function on the one state. -/
theorem zeroKeystreamIsTheKnownVector : Obligations.ZeroKeystreamIsTheKnownVector := by
  unfold Obligations.ZeroKeystreamIsTheKnownVector
  decide +kernel

end Sys2Proof.Machine
end

section
/-! SUPPORT. What an UPDATE reads of its slot (R28, R150, R151): the cursor, the words and the bytes of the buffer not yet
consumed. -/

namespace Sys2Proof.Machine

theorem unreadBytes_block_congr {a b : Slot} (h : a.st = b.st) : unreadBytes (block a) = unreadBytes (block b) := by
  simp [unreadBytes, h]

/-- Slots with the same cursor, words and unread bytes give the same output, whatever their consumed bytes, phase or method id. -/
theorem streamSlot_output_congr (a b : Slot) (data : List Byte) (hcur : a.cur = b.cur) (hst : a.st = b.st)
    (hunread : unreadBytes a = unreadBytes b) : (streamSlot a data).2 = (streamSlot b data).2 := by
  induction a, data using stream_induction generalizing b with
  | tail a data h => rw [streamSlot_tail _ _ h, streamSlot_tail _ _ (by rwa [← hcur]), hunread]
  | refill a data h ih =>
    rw [streamSlot_refill _ _ h, streamSlot_refill b _ (by rwa [← hcur]), ← hcur, hunread,
      ih (block b) rfl (by simp [hst]) (unreadBytes_block_congr hst)]

theorem streamedSlot_st_congr {a b : Slot} (data : List Byte) (hcur : a.cur = b.cur) (hst : a.st = b.st) :
    (streamedSlot a data).st = (streamedSlot b data).st := by
  obtain ⟨-, ha, -⟩ := streamSlot_end a data
  obtain ⟨-, hb, -⟩ := streamSlot_end b data
  exact ha.trans (hcur ▸ hst ▸ hb.symm)

theorem streamedSlot_cur_congr {a b : Slot} (data : List Byte) (hcur : a.cur = b.cur) :
    (streamedSlot a data).cur = (streamedSlot b data).cur := by
  obtain ⟨ha, -, -⟩ := streamSlot_end a data
  obtain ⟨hb, -, -⟩ := streamSlot_end b data
  exact Fin.ext (ha.trans (hcur ▸ hb.symm))

theorem streamedSlot_buf_congr {a b : Slot} (data : List Byte) (hcur : a.cur = b.cur) (hst : a.st = b.st)
    (hbuf : a.buf = b.buf) : (streamedSlot a data).buf = (streamedSlot b data).buf := by
  obtain ⟨-, -, ha⟩ := streamSlot_end a data
  obtain ⟨-, -, hb⟩ := streamSlot_end b data
  exact ha.trans (hcur ▸ hst ▸ hbuf ▸ hb.symm)

theorem unreadBytes_congr {a b : Slot} (hcur : a.cur = b.cur)
    (h : ∀ j : Fin 64, a.cur.val ≤ j.val → b.buf[j.val] = a.buf[j.val]) : unreadBytes a = unreadBytes b := by
  refine List.ext_getElem (by simp [hcur]) fun k hk _ => ?_
  rw [length_unreadBytes] at hk
  have hj := h ⟨a.cur.val + k, by omega⟩ (Nat.le_add_right _ _)
  simpa [unreadBytes, ← hcur] using hj.symm

/-- Settles O53: the two slots have the same cursor, words and unread bytes, which is all an UPDATE reads. -/
theorem consumedBytesAreNeverRead : Obligations.ConsumedBytesAreNeverRead := by
  intro s e a b data hs hp hphase _ hst hcur hbuf
  obtain ⟨sl, hsl⟩ := Option.isSome_iff_exists.mp hs
  have ha := slot?_setSlot_self hsl a
  have hb := slot?_setSlot_self hsl b
  have hout := streamSlot_output_congr b a data hcur hst (unreadBytes_congr hcur.symm hbuf).symm
  exact ⟨_, _, _, _, execUpdate_eq ha hp data, execUpdate_eq hb (hphase ▸ hp) data, by simp [hout],
    slot?_setSlot_self ha _, slot?_setSlot_self hb _, streamedSlot_st_congr data hcur hst, streamedSlot_cur_congr data hcur⟩

end Sys2Proof.Machine
end

section
/-! SUPPORT. Two units side by side: where their slots are related one by one, so that a command cannot tell them apart, it
answers both alike and leaves them related again. What an UNINIT slot holds (R37) and what no report shows (R26, R35) are two
cases. -/

namespace Sys2Proof.Machine

/-! One step, forwards. -/

theorem step_idle {s : State} (h : s.inbox = []) : step s = .next s := by simp [step, fetch, h]

theorem step_reset {s : State} {rest : List Input} (h : s.inbox = .reset :: rest) :
    step s = .next (resetEvent { s with inbox := rest }) := by simp [step, fetch, h]

theorem step_notACommand {s : State} {c : Command} {rest : List Input} (h : s.inbox = .command c :: rest)
    (hd : decode s.config c = .error .notACommand) : step s = .refused .notACommand := by simp [step, fetch, h, hd]

theorem step_illegal {s : State} {c : Command} {rest : List Input} {r : IllegalReason} (h : s.inbox = .command c :: rest)
    (hd : decode s.config c = .error (.illegal r)) :
    step s = .next (({ s with inbox := rest } : State).respond .illegalCommand []) := by
  simp [step, fetch, h, hd, raise]

theorem step_command {s : State} {c : Command} {rest : List Input} {i : Instr} (h : s.inbox = .command c :: rest)
    (hd : decode s.config c = .ok i) : step s = exec i { s with inbox := rest } := by simp [step, fetch, h, hd]

/-! States and results with related slots. -/

theorem forall₂_set {α β : Type} {R : α → β → Prop} {l : List α} {l' : List β} (h : List.Forall₂ R l l') {a : α} {b : β}
    (hab : R a b) (n : Nat) : List.Forall₂ R (l.set n a) (l'.set n b) := by
  induction h generalizing n with
  | nil => exact .nil
  | cons hxy hl ih =>
    cases n with
    | zero => exact .cons hab hl
    | succ n => exact .cons hxy (ih n)

/-- Two states with the same configuration and port whose slots are related by R, index by index. -/
structure StatesMatch (R : Slot → Slot → Prop) (s s' : State) : Prop where
  registry : s'.registry = s.registry
  debugEn : s'.debugEn = s.debugEn
  inbox : s'.inbox = s.inbox
  outbox : s'.outbox = s.outbox
  slots : List.Forall₂ R s.slots s'.slots

/-- Both answer a next state, and these match, or both refuse for the same reason. -/
inductive ResultsMatch (R : Slot → Slot → Prop) : Result → Result → Prop where
  | next {t t' : State} (h : StatesMatch R t t') : ResultsMatch R (.next t) (.next t')
  | refused (r : Refusal) : ResultsMatch R (.refused r) (.refused r)

theorem ResultsMatch.outcomes {R : Slot → Slot → Prop} {r r' : Result} (h : ResultsMatch R r r') :
    (∃ t t', r = .next t ∧ r' = .next t' ∧ StatesMatch R t t') ∨ ∃ q, r = .refused q ∧ r' = .refused q := by
  cases h with
  | next h => exact .inl ⟨_, _, rfl, rfl, h⟩
  | refused q => exact .inr ⟨q, rfl, rfl⟩

theorem stateAgrees_iff (s s' : State) : StateAgrees s s' ↔ StatesMatch SlotAgrees s s' :=
  ⟨fun ⟨hreg, hdebug, hin, hout, hslots⟩ => ⟨hreg, hdebug, hin, hout, hslots⟩,
    fun ⟨hreg, hdebug, hin, hout, hslots⟩ => ⟨hreg, hdebug, hin, hout, hslots⟩⟩

section
variable {R R' : Slot → Slot → Prop} {s s' : State}

theorem StatesMatch.imp (h : StatesMatch R s s') (hR : ∀ a b, R a b → R' a b) : StatesMatch R' s s' :=
  ⟨h.registry, h.debugEn, h.inbox, h.outbox, h.slots.imp hR⟩

theorem StatesMatch.config (h : StatesMatch R s s') : s'.config = s.config := by
  simp [State.config, h.registry, h.debugEn, h.slots.length_eq]

theorem StatesMatch.slot?_cases (h : StatesMatch R s s') (e : SlotIndex) :
    (s.slot? e = none ∧ s'.slot? e = none) ∨ ∃ a b, s.slot? e = some a ∧ s'.slot? e = some b ∧ R a b := by
  have hlen := h.slots.length_eq
  by_cases he : e.toNat < s.slots.length
  · exact .inr ⟨_, _, List.getElem?_eq_getElem he, List.getElem?_eq_getElem (hlen ▸ he), h.slots.get he (hlen ▸ he)⟩
  · exact .inl ⟨(slot?_none_iff s e).mpr (by omega), (slot?_none_iff s' e).mpr (by omega)⟩

theorem StatesMatch.setSlot (h : StatesMatch R s s') (e : SlotIndex) {a b : Slot} (hab : R a b) :
    StatesMatch R (s.setSlot e a) (s'.setSlot e b) :=
  ⟨h.registry, h.debugEn, h.inbox, h.outbox, forall₂_set h.slots hab e.toNat⟩

theorem StatesMatch.respond (h : StatesMatch R s s') (st : Status) (q : List Byte) :
    StatesMatch R (s.respond st q) (s'.respond st q) :=
  ⟨h.registry, h.debugEn, h.inbox, by simp [h.outbox], h.slots⟩

theorem StatesMatch.setInbox (h : StatesMatch R s s') (rest : List Input) :
    StatesMatch R { s with inbox := rest } { s' with inbox := rest } :=
  ⟨h.registry, h.debugEn, rfl, h.outbox, h.slots⟩

theorem StatesMatch.resetEvent (h : StatesMatch R s s')
    (hempty : ∀ a b : Slot, a.phase = .uninit → b.phase = .uninit → R' a b) :
    StatesMatch R' (resetEvent s) (resetEvent s') := by
  refine ⟨h.registry, h.debugEn, h.inbox, h.outbox, List.forall₂_iff_get.mpr ⟨?_, fun n h₁ h₂ => hempty _ _ ?_ ?_⟩⟩
  · simp [Machine.resetEvent, h.slots.length_eq]
  · simp [Machine.resetEvent]
  · simp [Machine.resetEvent]

/-! The shared checks. -/

theorem withSlot_match (h : StatesMatch R s s') (hR : ∀ a b, R a b → R' a b) (e : SlotIndex) {k k' : Slot → Result}
    (hk : ∀ a b, R a b → ResultsMatch R' (k a) (k' b)) : ResultsMatch R' (withSlot s e k) (withSlot s' e k') := by
  obtain ⟨hs, hs'⟩ | ⟨a, b, hs, hs', hab⟩ := h.slot?_cases e
  · rw [withSlot_none hs, withSlot_none hs']
    exact .next ((h.imp hR).respond _ _)
  · rw [withSlot_some hs, withSlot_some hs']
    exact hk a b hab

theorem withEngine_match (h : StatesMatch R s s') (hR : ∀ a b, R a b → R' a b) (hphase : ∀ a b, R a b → a.phase = b.phase)
    (e : SlotIndex) {k k' : Slot → Result} (hk : ∀ a b, R a b → a.phase ≠ .uninit → ResultsMatch R' (k a) (k' b)) :
    ResultsMatch R' (withEngine s e k) (withEngine s' e k') := by
  refine withSlot_match h hR e fun a b hab => ?_
  rw [← hphase a b hab]
  split
  · exact .next ((h.imp hR).respond _ _)
  · rename_i hp
    exact hk a b hab hp

theorem withDebug_match (h : StatesMatch R s s') (hR : ∀ a b, R a b → R' a b) {r r' : Result} (hr : ResultsMatch R' r r') :
    ResultsMatch R' (withDebug s r) (withDebug s' r') := by
  unfold withDebug
  rw [h.debugEn]
  split
  · exact hr
  · exact .next ((h.imp hR).respond _ _)

end

/-- What makes commands respect a relation R between slots: related slots have the same phase, the same report of an engine
(R186), and what a command leaves in them is related by R'. -/
structure CommandsRespect (R R' : Slot → Slot → Prop) : Prop where
  kept : ∀ a b, R a b → R' a b
  phase : ∀ a b, R a b → a.phase = b.phase
  report : ∀ a b, R a b → a.phase ≠ .uninit → slotReport a = slotReport b
  emptied : ∀ a b : Slot, a.phase = .uninit → b.phase = .uninit → R' a b
  created : ∀ m key nonce a b, R a b → R' (createdSlot a m key nonce) (createdSlot b m key nonce)
  streamed : ∀ data a b, R a b → a.phase ≠ .uninit → R' (streamedSlot a data) (streamedSlot b data)
  resynced : ∀ nonce a b, R a b → a.phase ≠ .uninit → R' (resyncedSlot a nonce) (resyncedSlot b nonce)
  counterSet : ∀ (lo hi : Word) a b, R a b → a.phase ≠ .uninit →
    R' { a with st := (a.st.set 12 lo).set 13 hi } { b with st := (b.st.set 12 lo).set 13 hi }

/-- An UPDATE with the input returns the same bytes on engines related by R. -/
def SameOutput (R : Slot → Slot → Prop) (data : List Byte) : Prop :=
  ∀ a b, R a b → a.phase ≠ .uninit → (streamSlot a data).2 = (streamSlot b data).2

/-- A command answers matching states alike. -/
theorem exec_match {R R' : Slot → Slot → Prop} (hR : CommandsRespect R R') {i : Instr}
    (hout : ∀ e data, i = .update e data → SameOutput R data) {s s' : State} (h : StatesMatch R s s') :
    ResultsMatch R' (exec i s) (exec i s') := by
  have h' : StatesMatch R' s s' := h.imp hR.kept
  have hfree : ∀ (e : SlotIndex) (a b : Slot), StatesMatch R' (s.invalidate e a) (s'.invalidate e b) :=
    fun e a b => h'.setSlot e (hR.emptied _ _ rfl rfl)
  cases i with
  | resolve name =>
    simp only [exec, execResolve, h.registry]
    cases lookupName s.registry name with
    | none => exact .next (h'.respond _ _)
    | some d => exact .next (h'.respond _ _)
  | create e m key nonce =>
    refine withSlot_match h hR.kept e fun a b hab => ?_
    rw [h.registry]
    cases lookupId s.registry m with
    | none => exact .next ((hfree e a b).respond _ _)
    | some d =>
      simp only [mux_eq]
      split_ifs
      · exact .next ((hfree e a b).respond _ _)
      · exact .next ((hfree e a b).respond _ _)
      · exact .refused _
      · exact .next ((h'.setSlot e (hR.created m key nonce a b hab)).respond _ _)
  | update e data =>
    refine withEngine_match h hR.kept hR.phase e fun a b hab hp => ?_
    simp only [mux_eq, hout e data rfl a b hab hp]
    exact .next ((h'.setSlot e (hR.streamed data a b hab hp)).respond _ _)
  | setiv e nonce =>
    refine withEngine_match h hR.kept hR.phase e fun a b hab hp => ?_
    simp only [mux_eq]
    split
    · exact .next ((h'.setSlot e (hR.resynced nonce a b hab hp)).respond _ _)
    · exact .next ((hfree e a b).respond _ _)
  | destroy e =>
    refine withSlot_match h hR.kept e fun a b hab => ?_
    rw [← hR.phase a b hab]
    split
    · exact .next (h'.respond _ _)
    · exact .next ((hfree e a b).respond _ _)
  | rdstate e =>
    refine withDebug_match h hR.kept (withEngine_match h hR.kept hR.phase e fun a b hab hp => ?_)
    rw [← hR.report a b hab hp]
    exact .next (h'.respond _ _)
  | wrctr e lo hi =>
    exact withDebug_match h hR.kept (withEngine_match h hR.kept hR.phase e fun a b hab hp =>
      .next ((h'.setSlot e (hR.counterSet lo hi a b hab hp)).respond _ _))
  | qround a b c d => exact withDebug_match h hR.kept (.next (h'.respond _ _))

/-- A step answers matching states alike. -/
theorem step_match {R : Slot → Slot → Prop} (hR : CommandsRespect R R) (hout : ∀ data, SameOutput R data) {s s' : State}
    (h : StatesMatch R s s') : ResultsMatch R (step s) (step s') := by
  match hin : s.inbox with
  | [] =>
    rw [step_idle hin, step_idle (h.inbox.trans hin)]
    exact .next h
  | .reset :: rest =>
    rw [step_reset hin, step_reset (h.inbox.trans hin)]
    exact .next ((h.setInbox rest).resetEvent hR.emptied)
  | .command c :: rest =>
    have hin' := h.inbox.trans hin
    match hd : decode s.config c with
    | .error .notACommand =>
      rw [step_notACommand hin hd, step_notACommand hin' (h.config ▸ hd)]
      exact .refused _
    | .error (.illegal r) =>
      rw [step_illegal hin hd, step_illegal hin' (h.config ▸ hd)]
      exact .next ((h.setInbox rest).respond _ _)
    | .ok i =>
      rw [step_command hin hd, step_command hin' (h.config ▸ hd)]
      exact exec_match hR (fun _ data _ => hout data) (h.setInbox rest)

/-! What an UNINIT slot holds (R37, R233). -/

/-- Slots no command can tell apart: UNINIT both, or engines that differ in the model's draw count at most. -/
theorem slotAgrees_respected : CommandsRespect SlotAgrees SlotAgrees where
  kept _ _ h := h
  phase _ _ h := h.1
  report a b h hp := by
    obtain ⟨hphase, hlive⟩ := h
    obtain ⟨hmid, hst, -, hcur⟩ := hlive hp
    simp [slotReport, hphase, hmid, hst, hcur]
  emptied a b ha hb := ⟨ha.trans hb.symm, fun hp => absurd ha hp⟩
  created m key nonce a b _ := ⟨rfl, fun _ => by simp⟩
  streamed data a b h hp := by
    obtain ⟨-, hlive⟩ := h
    obtain ⟨hmid, hst, hbuf, hcur⟩ := hlive hp
    exact ⟨rfl, fun _ => ⟨(streamSlot_mid a data).trans (hmid.trans (streamSlot_mid b data).symm),
      streamedSlot_st_congr data hcur hst, streamedSlot_buf_congr data hcur hst hbuf, streamedSlot_cur_congr data hcur⟩⟩
  resynced nonce a b h hp := by
    obtain ⟨-, hlive⟩ := h
    obtain ⟨hmid, hst, -, -⟩ := hlive hp
    exact ⟨rfl, fun _ => by simp [hmid, hst]⟩
  counterSet lo hi a b h hp := by
    obtain ⟨hphase, hlive⟩ := h
    obtain ⟨hmid, hst, hbuf, hcur⟩ := hlive hp
    exact ⟨hphase, fun _ => ⟨hmid, by simp only [hst], hbuf, hcur⟩⟩

theorem slotAgrees_output (data : List Byte) : SameOutput SlotAgrees data := by
  intro a b ⟨_, hlive⟩ hp
  obtain ⟨-, hst, hbuf, hcur⟩ := hlive hp
  exact streamSlot_output_congr a b data hcur hst (by simp [unreadBytes, hbuf, hcur])

/-- Settles O23: every command answers alike on slots that agree, so every step does. -/
theorem emptySlotContentsAreUnobservable : Obligations.EmptySlotContentsAreUnobservable := by
  intro s s' h
  have hstep := step_match slotAgrees_respected slotAgrees_output ((stateAgrees_iff s s').mp h)
  obtain ⟨t, t', ht, ht', htt⟩ | hrefused := hstep.outcomes
  · exact .inl ⟨t, t', ht, ht', (stateAgrees_iff t t').mpr htt⟩
  · exact .inr hrefused

/-! What no report shows (R26, R35, R58). -/

theorem slotReportAgrees_refl (a : Slot) : SlotReportAgrees a a := ⟨rfl, rfl, rfl, fun _ _ => rfl⟩

theorem slotReport_congr {a b : Slot} (h : SlotReportAgrees a b) : slotReport a = slotReport b := by
  obtain ⟨hphase, hmid, hcur, hst⟩ := h
  have h12 : a.st[12] = b.st[12] := hst 12 (by decide)
  have h13 : a.st[13] = b.st[13] := hst 13 (by decide)
  have h14 : a.st[14] = b.st[14] := hst 14 (by decide)
  have h15 : a.st[15] = b.st[15] := hst 15 (by decide)
  simp [slotReport, hphase, hmid, hcur, h12, h13, h14, h15]

/-- Slots with the same phase, mid, cursor and words 12 to 15 have the same report; of what a command leaves there, which may
differ, nothing is claimed. -/
theorem slotReportAgrees_respected : CommandsRespect SlotReportAgrees fun _ _ => True where
  kept _ _ _ := trivial
  phase _ _ h := h.1
  report _ _ h _ := slotReport_congr h
  emptied _ _ _ _ := trivial
  created _ _ _ _ _ _ := trivial
  streamed _ _ _ _ _ := trivial
  resynced _ _ _ _ _ := trivial
  counterSet _ _ _ _ _ _ := trivial

/-- Settles O24: a response depends on the addressed slot's report at most. -/
theorem keyIsNeverReported : Obligations.KeyIsNeverReported := by
  intro i s t e a b hi hab ht
  have hs : StatesMatch SlotReportAgrees s s :=
    ⟨rfl, rfl, rfl, rfl, List.forall₂_same.mpr fun x _ => slotReportAgrees_refl x⟩
  have hexec := exec_match slotReportAgrees_respected (fun e' data hu => absurd hu (hi e' data)) (hs.setSlot e hab)
  obtain ⟨u, t', hu, ht', h⟩ | ⟨q, hq, -⟩ := hexec.outcomes
  · obtain rfl : t = u := Host.Outcome.next.inj (ht.symm.trans hu)
    exact ⟨t', ht', h.outbox⟩
  · cases ht.symm.trans hq

end Sys2Proof.Machine
end

section
/-! SUPPORT. Words as base-256 numbers (R50, R51), and the commands that write nothing (R56). -/

namespace Sys2Proof.Machine

/-- Byte j of a word is its base-256 digit j (R51). -/
theorem wordByte_toNat (w : Word) (j : Nat) : (wordByte w j).toNat = w.toNat / 2 ^ (8 * j) % 256 := by
  simp [wordByte, BitVec.extractLsb'_toNat, Nat.shiftRight_eq_div_pow]

theorem bytesLe32_toNat (w : Word) :
    (bytesLe32 w).map BitVec.toNat
      = [w.toNat % 256, w.toNat / 2 ^ 8 % 256, w.toNat / 2 ^ 16 % 256, w.toNat / 2 ^ 24] := by
  have htop : w.toNat / 2 ^ 24 % 256 = w.toNat / 2 ^ 24 := Nat.mod_eq_of_lt (by omega)
  rw [← htop]
  simp [bytesLe32, wordByte_toNat]

/-- The bytes le32 was given are the digits of its word, and a word below 2^32 is the sum of its four digits. -/
theorem le32_toNat (b0 b1 b2 b3 : Byte) :
    (le32 b0 b1 b2 b3).toNat = b0.toNat + 2 ^ 8 * b1.toNat + 2 ^ 16 * b2.toNat + 2 ^ 24 * b3.toNat := by
  have hdigits := bytesLe32_toNat (le32 b0 b1 b2 b3)
  rw [bytesLe32_le32] at hdigits
  simp only [List.map_cons, List.map_nil, List.cons.injEq, and_true] at hdigits
  obtain ⟨h0, h1, h2, h3⟩ := hdigits
  omega

/-- Settles O26: the digits of a word give both directions. -/
theorem packingIsLittleEndian : Obligations.PackingIsLittleEndian := ⟨le32_toNat, bytesLe32_toNat⟩

/-- Settles O18: the commands that write a slot are CREATE, UPDATE, SETIV, WRCTR and DESTROY, none of the three; what is left is
one response. -/
theorem queriesChangeNoState : Obligations.QueriesChangeNoState := by
  intro i s t hquery h
  obtain ⟨st, q, -, rfl, -⟩ | ⟨e, sl, -, -, hwriter⟩ := exec_next_cases h
  · exact ⟨responseOf st q, rfl⟩
  · obtain ⟨name, rfl⟩ | ⟨e', rfl⟩ | ⟨a, b, c, d, rfl⟩ := hquery <;> simp at hwriter

end Sys2Proof.Machine
end

section
/-! SUPPORT. Decoder and encoder as inverses (30_encoding.md R70 to R75, R79): what a legal header is, said once, and the header
and payload of an instruction against the instruction read from them. -/

namespace Sys2Proof

open Sys2Proof.Machine

/-! Words through their bytes (R50, R51). -/

@[simp] theorem wordAt_bytesLe32_append_zero (w : Word) (bs : List Byte) : wordAt (bytesLe32 w ++ bs) 0 = w :=
  le32_wordBytes w

@[simp] theorem wordAt_bytesLe32_append_succ (w : Word) (bs : List Byte) (i : Nat) :
    wordAt (bytesLe32 w ++ bs) (i + 1) = wordAt bs i := rfl

@[simp] theorem wordAt_bytesLe32 (w : Word) : wordAt (bytesLe32 w) 0 = w := le32_wordBytes w

/-- The bytes of word i of a byte string are its bytes 4 i to 4 i + 3, so they continue what stands before them. -/
theorem take_append_bytesLe32_wordAt (bs : List Byte) (i : Nat) (h : 4 * (i + 1) ≤ bs.length) :
    bs.take (4 * i) ++ bytesLe32 (wordAt bs i) = bs.take (4 * (i + 1)) := by
  have h0 : 4 * i < bs.length := by omega
  have h1 : 4 * i + 1 < bs.length := by omega
  have h2 : 4 * i + 2 < bs.length := by omega
  have h3 : 4 * i + 3 < bs.length := by omega
  rw [Nat.mul_succ, List.take_succ_eq_append_getElem h3, List.take_succ_eq_append_getElem h2,
    List.take_succ_eq_append_getElem h1, List.take_succ_eq_append_getElem h0, wordAt, bytesLe32_le32]
  simp only [byteAt, List.getD_eq_getElem _ _ h0, List.getD_eq_getElem _ _ h1, List.getD_eq_getElem _ _ h2,
    List.getD_eq_getElem _ _ h3, List.append_assoc, List.cons_append, List.nil_append]

theorem bytesLe32_wordAt_zero (bs : List Byte) (h : 4 ≤ bs.length) : bytesLe32 (wordAt bs 0) = bs.take (4 * 1) := by
  simpa using take_append_bytesLe32_wordAt bs 0 h

/-! A header is its four fields (R71). -/

theorem header_ext {h h' : BitVec 32} (hop : headerOp h = headerOp h') (hslot : headerSlot h = headerSlot h')
    (hmethod : headerMethod h = headerMethod h') (harg : headerArg h = headerArg h') : h = h' := by
  have hop := congrArg BitVec.toNat hop
  have hslot := congrArg BitVec.toNat hslot
  have hmethod := congrArg BitVec.toNat hmethod
  rw [headerOp_toNat, headerOp_toNat] at hop
  rw [headerSlot_toNat, headerSlot_toNat] at hslot
  rw [headerMethod_toNat, headerMethod_toNat] at hmethod
  rw [headerArg_eq, headerArg_eq] at harg
  exact BitVec.eq_of_toNat_eq (by omega)

theorem headerArg_lt (h : BitVec 32) : headerArg h < 65536 := BitVec.isLt _

theorem headerKlen_lt (h : BitVec 32) : headerKlen h < 256 := BitVec.isLt _

theorem headerNlen_lt (h : BitVec 32) : headerNlen h < 256 := BitVec.isLt _

/-- ARG of a CREATE header is KLEN and NLEN side by side (R75). -/
theorem headerArg_eq_klen_nlen (h : BitVec 32) : headerArg h = headerKlen h * 256 + headerNlen h := by
  rw [headerArg_eq, headerKlen_eq, headerNlen_eq]
  omega

/-! The opcode map in plain numbers (R72). -/

theorem op_of_opcodeOf {h : BitVec 32} {op : Opcode} (hop : opcodeOf (headerOp h) = some op) :
    h.toNat / 2 ^ 28 = (opcodeBits op).toNat := by
  rw [← headerOp_toNat, opcodeBits_of_opcodeOf hop]

theorem reserved_of_opcodeOf {h : BitVec 32} (hop : opcodeOf (headerOp h) = none) :
    h.toNat / 2 ^ 28 ∈ [0, 6, 7, 11, 12, 13, 14, 15] := by
  have hreserved : ∀ b : BitVec 4, opcodeOf b = none → b.toNat ∈ [0, 6, 7, 11, 12, 13, 14, 15] := by decide
  rw [← headerOp_toNat]
  exact hreserved _ hop

/-! What a legal header is (R79). -/

theorem mbzFieldsZero_iff (op : Opcode) (h : BitVec 32) :
    mbzFieldsZero op h = true ↔
      (op = .resolve ∨ op = .qround → headerSlot h = 0) ∧ (op ≠ .create → headerMethod h = 0) ∧
        (op = .destroy ∨ op = .rdstate → headerArg h = 0) := by
  cases op <;> simp [mbzFieldsZero, opcodeHasSlot]

theorem fixedArgRight_iff (op : Opcode) (h : BitVec 32) :
    fixedArgRight op h = true ↔ (op = .wrctr → headerArg h = 8) ∧ (op = .qround → headerArg h = 16) := by
  cases op <;> simp [fixedArgRight]

/-- The header h is legal in the configuration and selects the command op: none of the conditions (a) to (e) of R79 holds. -/
structure LegalHeader (cfg : Config) (op : Opcode) (h : BitVec 32) : Prop where
  opcode : opcodeOf (headerOp h) = some op
  debug : opcodeIsDebug op = true → cfg.debugEn = true
  mbz : mbzFieldsZero op h = true
  fixedArg : fixedArgRight op h = true
  slot : opcodeHasSlot op = true → (headerSlot h).toNat < cfg.nEngines

theorem legalHeader_iff {cfg : Config} {op : Opcode} {h : BitVec 32} (hop : opcodeOf (headerOp h) = some op) :
    LegalHeader cfg op h ↔ (opcodeIsDebug op = true → cfg.debugEn = true) ∧ mbzFieldsZero op h = true ∧
      fixedArgRight op h = true ∧ (opcodeHasSlot op = true → (headerSlot h).toNat < cfg.nEngines) :=
  ⟨fun ⟨_, hdebug, hmbz, hfixed, hslot⟩ => ⟨hdebug, hmbz, hfixed, hslot⟩,
    fun ⟨hdebug, hmbz, hfixed, hslot⟩ => ⟨hop, hdebug, hmbz, hfixed, hslot⟩⟩

theorem checkHeader_ok_iff (cfg : Config) (op : Opcode) (h : BitVec 32) :
    checkHeader cfg h = .ok op ↔ LegalHeader cfg op h := by
  rw [checkHeader]
  cases hop : opcodeOf (headerOp h) with
  | none => exact ⟨nofun, fun hl => by simp [hl.opcode] at hop⟩
  | some op' =>
    constructor
    · intro hok
      simp only at hok
      split_ifs at hok with hdebug hmbz hfixed hslot
      obtain rfl : op' = op := by simpa using hok
      exact ⟨hop, by simpa using hdebug, by simpa using hmbz, by simpa using hfixed, by simpa using hslot⟩
    · rintro ⟨hop', hdebug, hmbz, hfixed, hslot⟩
      obtain rfl : op' = op := Option.some.inj (hop.symm.trans hop')
      have hdebug : (opcodeIsDebug op' && !cfg.debugEn) = false := by simpa using hdebug
      have hslot : (opcodeHasSlot op' && decide (cfg.nEngines ≤ (headerSlot h).toNat)) = false := by simpa using hslot
      simp only [hdebug, hmbz, hfixed, hslot, Bool.not_true, Bool.false_eq_true, if_false]

theorem checkHeader_error_iff (cfg : Config) (h : BitVec 32) :
    (∃ r, checkHeader cfg h = .error r) ↔ ∀ op, ¬ LegalHeader cfg op h := by
  simp only [← checkHeader_ok_iff]
  cases checkHeader cfg h <;> simp

/-- The decoder accepts a command exactly where its header is legal, and reads its operands. -/
theorem decode_ok_iff (cfg : Config) (c : Command) (i : Instr) :
    decode cfg c = .ok i ↔
      wellFormedCommand c = true ∧ ∃ op, LegalHeader cfg op c.header ∧ assemble op c.header c.payload = i := by
  simp only [← checkHeader_ok_iff, decode]
  cases wellFormedCommand c <;> cases checkHeader cfg c.header <;> simp

theorem decode_notACommand_iff (cfg : Config) (c : Command) :
    decode cfg c = .error .notACommand ↔ c.payload.length ≠ plen c.header := by
  by_cases hc : c.payload.length = plen c.header
  · simp only [decode, wellFormedCommand, beq_iff_eq, if_pos hc]
    cases checkHeader cfg c.header <;> simp [hc]
  · simp [decode, wellFormedCommand, hc]

theorem decode_illegal_iff {cfg : Config} {c : Command} (hc : wellFormedCommand c = true) :
    (∃ r, decode cfg c = .error (.illegal r)) ↔ ∀ op, ¬ LegalHeader cfg op c.header := by
  rw [← checkHeader_error_iff]
  simp only [decode, hc]
  cases checkHeader cfg c.header <;> simp

/-- The conditions (a) to (e) in plain numbers say that the header is legal for no command. -/
theorem illegalByNumbers_iff (cfg : Config) (h : BitVec 32) :
    IllegalByNumbers cfg.nEngines cfg.debugEn h.toNat ↔ ∀ op, ¬ LegalHeader cfg op h := by
  cases hop : opcodeOf (headerOp h) with
  | none => exact iff_of_true (.inl (reserved_of_opcodeOf hop)) fun op hl => by simp [hl.opcode] at hop
  | some op =>
    have hunique : (∀ op', ¬ LegalHeader cfg op' h) ↔ ¬ LegalHeader cfg op h := by
      refine ⟨fun hl => hl op, fun hl op' hl' => ?_⟩
      obtain rfl : op = op' := Option.some.inj (hop.symm.trans hl'.opcode)
      exact hl hl'
    rw [hunique, legalHeader_iff hop]
    simp only [IllegalByNumbers, ← headerOp_toNat, ← headerSlot_toNat, ← headerMethod_toNat, ← headerArg_eq,
      ← opcodeBits_of_opcodeOf hop]
    cases op <;>
      simp [opcodeBits, mbzFieldsZero, fixedArgRight, opcodeHasSlot, opcodeIsDebug, ← BitVec.toNat_inj, imp_iff_not_or,
        or_assoc]

/-! The header and the payload of an instruction (R72 to R75). -/

/-- The command of the opcode map an instruction is (R72). -/
def Instr.opcode : Instr → Opcode
  | .resolve _ => .resolve
  | .create _ _ _ _ => .create
  | .update _ _ => .update
  | .setiv _ _ => .setiv
  | .destroy _ => .destroy
  | .rdstate _ => .rdstate
  | .wrctr _ _ _ => .wrctr
  | .qround _ _ _ _ => .qround

theorem isDebug_eq (i : Instr) : i.isDebug = opcodeIsDebug i.opcode := by cases i <;> rfl

@[simp] theorem headerOp_encodeHeader (i : Instr) : headerOp (encodeHeader i) = opcodeBits i.opcode := by
  cases i <;> exact headerOp_headerOf ..

theorem slot?_eq (i : Instr) :
    i.slot? = if opcodeHasSlot i.opcode then some (headerSlot (encodeHeader i)) else none := by
  cases i <;> simp [Instr.slot?, Instr.opcode, opcodeHasSlot, encodeHeader]

theorem mbzFieldsZero_encodeHeader (i : Instr) : mbzFieldsZero i.opcode (encodeHeader i) = true := by
  cases i <;> simp [mbzFieldsZero, Instr.opcode, opcodeHasSlot, encodeHeader]

theorem fixedArgRight_encodeHeader (i : Instr) : fixedArgRight i.opcode (encodeHeader i) = true := by
  cases i <;> simp [fixedArgRight, Instr.opcode, encodeHeader]

theorem wellFormed_iff (cfg : Config) (i : Instr) : i.wellFormed cfg = true ↔ i.fits = true ∧ i.allowed cfg = true :=
  Bool.and_eq_true_iff

/-- What an instruction encodes to is a legal header exactly where the configuration admits the instruction: the fields R74 asks
for are right by construction. -/
theorem legalHeader_encodeHeader_iff (cfg : Config) (i : Instr) :
    LegalHeader cfg i.opcode (encodeHeader i) ↔ i.allowed cfg = true := by
  rw [legalHeader_iff (by simp), Instr.allowed, isDebug_eq, slot?_eq]
  cases opcodeIsDebug i.opcode <;> cases opcodeHasSlot i.opcode <;>
    simp [mbzFieldsZero_encodeHeader, fixedArgRight_encodeHeader]

theorem wellFormedCommand_encode {i : Instr} (h : i.fits = true) : wellFormedCommand (encode i) = true := by
  cases i with
  | resolve name => exact Laws.EncodesToACommand.resolve name h
  | create e m key nonce => exact Laws.EncodesToACommand.create e m key nonce h
  | update e data => exact Laws.EncodesToACommand.update e data h
  | setiv e nonce => exact Laws.EncodesToACommand.setiv e nonce h
  | destroy e => exact Laws.EncodesToACommand.destroy e h
  | rdstate e => exact Laws.EncodesToACommand.rdstate e h
  | wrctr e lo hi => exact Laws.EncodesToACommand.wrctr e lo hi h
  | qround a b c d => exact Laws.EncodesToACommand.qround a b c d h

theorem assemble_encode {i : Instr} (h : i.fits = true) :
    assemble i.opcode (encodeHeader i) (encodePayload i) = i := by
  cases i with
  | resolve name => rfl
  | create e m key nonce =>
    simp only [Instr.fits, Bool.and_eq_true, decide_eq_true_eq] at h
    have hklen : key.length % 256 = key.length := Nat.mod_eq_of_lt (by omega)
    simp [Instr.opcode, assemble, encodeHeader, encodePayload, hklen]
  | update e data => simp [Instr.opcode, assemble, encodeHeader, encodePayload]
  | setiv e nonce => simp [Instr.opcode, assemble, encodeHeader, encodePayload]
  | destroy e => simp [Instr.opcode, assemble, encodeHeader]
  | rdstate e => simp [Instr.opcode, assemble, encodeHeader]
  | wrctr e lo hi => simp [Instr.opcode, assemble, encodeHeader, encodePayload]
  | qround a b c d => simp [Instr.opcode, assemble, encodePayload, List.append_assoc]

theorem opcode_assemble (op : Opcode) (h : BitVec 32) (p : List Byte) : (assemble op h p).opcode = op := by
  cases op <;> rfl

/-- The encoder writes back every field of a legal header: what it writes as zero or as a fixed ARG, R74 asks for, and the lengths
are those the payload has. -/
theorem encodeHeader_assemble {cfg : Config} {op : Opcode} {h : BitVec 32} {p : List Byte} (hl : LegalHeader cfg op h)
    (hp : p.length = plen h) : encodeHeader (assemble op h p) = h := by
  obtain ⟨hop, -, hmbz, hfixed, -⟩ := hl
  obtain ⟨hslot, hmethod, hzeroArg⟩ := (mbzFieldsZero_iff op h).mp hmbz
  obtain ⟨hwrctr, hqround⟩ := (fixedArgRight_iff op h).mp hfixed
  apply header_ext
  case hop => rw [headerOp_encodeHeader, opcode_assemble, opcodeBits_of_opcodeOf hop]
  case hslot => cases op <;> simp [assemble, encodeHeader, hslot]
  case hmethod => cases op <;> simp [assemble, encodeHeader, hmethod]
  case harg =>
    have harg := Nat.mod_eq_of_lt (headerArg_lt h)
    have hklen := Nat.mod_eq_of_lt (headerKlen_lt h)
    have hnlen := Nat.mod_eq_of_lt (headerNlen_lt h)
    simp only [plen, hop] at hp
    cases op with
    | create =>
      rw [headerArg_eq_klen_nlen, headerArg_eq_klen_nlen h]
      simp [assemble, encodeHeader, hp, hklen, hnlen]
    | resolve => simp [assemble, encodeHeader, hp, harg]
    | update => simp [assemble, encodeHeader, hp, harg]
    | setiv => simp [assemble, encodeHeader, hp, harg]
    | destroy => simp [assemble, encodeHeader, hzeroArg]
    | rdstate => simp [assemble, encodeHeader, hzeroArg]
    | wrctr => simp [assemble, encodeHeader, hwrctr]
    | qround => simp [assemble, encodeHeader, hqround]

theorem encodePayload_assemble {cfg : Config} {op : Opcode} {h : BitVec 32} {p : List Byte} (hl : LegalHeader cfg op h)
    (hp : p.length = plen h) : encodePayload (assemble op h p) = p := by
  obtain ⟨hop, -, -, hfixed, -⟩ := hl
  obtain ⟨hwrctr, hqround⟩ := (fixedArgRight_iff op h).mp hfixed
  simp only [plen, hop] at hp
  cases op with
  | resolve => rfl
  | update => rfl
  | setiv => rfl
  | create => exact List.take_append_drop _ p
  | destroy => exact (List.eq_nil_of_length_eq_zero hp).symm
  | rdstate => exact (List.eq_nil_of_length_eq_zero hp).symm
  | wrctr =>
    have hp : p.length = 8 := hp.trans (hwrctr rfl)
    rw [assemble, encodePayload, bytesLe32_wordAt_zero p (by omega), take_append_bytesLe32_wordAt p 1 (by omega)]
    exact List.take_of_length_le (by omega)
  | qround =>
    have hp : p.length = 16 := hp.trans (hqround rfl)
    rw [assemble, encodePayload, bytesLe32_wordAt_zero p (by omega), take_append_bytesLe32_wordAt p 1 (by omega),
      take_append_bytesLe32_wordAt p 2 (by omega), take_append_bytesLe32_wordAt p 3 (by omega)]
    exact List.take_of_length_le (by omega)

/-- What the decoder reads of a command fits the header's length fields: the lengths come from them. -/
theorem fits_assemble {op : Opcode} {h : BitVec 32} {p : List Byte} (hop : opcodeOf (headerOp h) = some op)
    (hp : p.length = plen h) : (assemble op h p).fits = true := by
  have harg := headerArg_lt h
  have hklen := headerKlen_lt h
  have hnlen := headerNlen_lt h
  cases op <;> simp only [plen, hop] at hp <;> simp [assemble, Instr.fits] <;> omega

/-- Settles O9: the encoding is a command, its header is legal because the configuration admits the instruction, and its operands
are read back. -/
theorem decodeOfEncodeIsTheInstruction : Obligations.DecodeOfEncodeIsTheInstruction := by
  intro cfg i hi
  obtain ⟨hfits, hallowed⟩ := (wellFormed_iff cfg i).mp hi
  exact (decode_ok_iff cfg (encode i) i).mpr ⟨wellFormedCommand_encode hfits, i.opcode,
    (legalHeader_encodeHeader_iff cfg i).mpr hallowed, assemble_encode hfits⟩

/-- Settles O10: an accepted command has a legal header, which the encoder writes back with its payload; a legal header written
back is that of an admitted instruction. -/
theorem acceptedCommandsAreEncodings : Obligations.AcceptedCommandsAreEncodings := by
  intro cfg c i hd
  obtain ⟨hc, op, hl, rfl⟩ := (decode_ok_iff cfg c i).mp hd
  have hp : c.payload.length = plen c.header := by simpa [wellFormedCommand] using hc
  have hheader := encodeHeader_assemble hl hp
  have hallowed : (assemble op c.header c.payload).allowed cfg = true := by
    rw [← legalHeader_encodeHeader_iff, hheader, opcode_assemble]
    exact hl
  refine ⟨?_, (wellFormed_iff cfg _).mpr ⟨fits_assemble hl.opcode hp, hallowed⟩⟩
  rw [encode, hheader, encodePayload_assemble hl hp]

/-- Settles O6: the decoder turns a command away where its header is legal for no command of the opcode map. -/
theorem decoderRejectsExactlyIllegalHeaders : Obligations.DecoderRejectsExactlyIllegalHeaders :=
  fun cfg c hc => (decode_illegal_iff hc).trans (illegalByNumbers_iff cfg c.header).symm

/-- Settles O8: PLEN by the command the OP field selects. -/
theorem payloadLengthFromHeader : Obligations.PayloadLengthFromHeader := by
  intro h
  rw [← headerKlen_eq, ← headerNlen_eq, ← headerArg_eq, plen]
  cases hop : opcodeOf (headerOp h) with
  | none =>
    have hreserved := reserved_of_opcodeOf hop
    simp only [List.mem_cons, List.not_mem_nil, or_false] at hreserved
    rw [if_neg (by omega), if_neg (by omega)]
  | some op =>
    rw [op_of_opcodeOf hop]
    cases op <;> simp [opcodeBits]

end Sys2Proof
end

section
/-! SUPPORT. One step of the command port: which command is run, refused or turned away (R70, R79, R82), and the one response
every command gets (R70). -/

namespace Sys2Proof.Machine

/-! The response (R76). -/

theorem length_eq_statusWord_div {q : List Byte} (st : Status) (h : q.length < 65536) :
    q.length = (statusWord q.length st).toNat / 2 ^ 16 := by
  rw [statusWord_toNat _ _ h]
  have := (statusCode st).isLt
  omega

/-- Settles O13: the five codes of R77. -/
theorem statusWordLayout : Obligations.StatusWordLayout := by
  intro n hn
  simp [statusWord_toNat n _ hn, statusCode]

/-! What an instruction the configuration does not admit answers (R79 (b), (e)). -/

theorem exec_debugOff {i : Instr} {s : State} (hi : i.isDebug = true) (hs : s.debugEn = false) :
    exec i s = .next (s.respond .illegalCommand []) := by
  cases i with
  | rdstate e => exact withDebug_off hs _
  | wrctr e lo hi => exact withDebug_off hs _
  | qround a b c d => exact withDebug_off hs _
  | _ => cases hi

theorem withDebug_illegal {s : State} {r : Result} (h : r = .next (s.respond .illegalCommand [])) :
    withDebug s r = .next (s.respond .illegalCommand []) := by
  simp [withDebug, h, raise]

theorem exec_slotOutOfRange {i : Instr} {s : State} {e : SlotIndex} (hi : i.slot? = some e) (hs : s.slot? e = none) :
    exec i s = .next (s.respond .illegalCommand []) := by
  cases i with
  | create e' m key nonce => cases hi; exact withSlot_none hs _
  | update e' data => cases hi; exact withEngine_none hs _
  | setiv e' nonce => cases hi; exact withEngine_none hs _
  | destroy e' => cases hi; exact withSlot_none hs _
  | rdstate e' => cases hi; exact withDebug_illegal (withEngine_none hs _)
  | wrctr e' lo hi' => cases hi; exact withDebug_illegal (withEngine_none hs _)
  | _ => cases hi

theorem not_allowed_iff (cfg : Config) (i : Instr) :
    i.allowed cfg = false ↔
      (i.isDebug = true ∧ cfg.debugEn = false) ∨ ∃ e, i.slot? = some e ∧ cfg.nEngines ≤ e.toNat := by
  cases hslot : i.slot? <;> simp [Instr.allowed, hslot, imp_iff_not_or]

/-- Settles O25: a test-access command without DEBUG_EN, or a slot at or above N_ENGINES. -/
theorem unadmittedCommandIsIllegal : Obligations.UnadmittedCommandIsIllegal := by
  intro i s h
  obtain ⟨hi, hdebug⟩ | ⟨e, hi, hslot⟩ := (not_allowed_iff s.config i).mp h
  · exact exec_debugOff hi hdebug
  · exact exec_slotOutOfRange hi ((slot?_none_iff s e).mpr hslot)

/-! What stands next at the port (R70, R79, R82). -/

/-- Settles O4: the next input is the command, and withFetchWord puts the table's command before what waits. -/
theorem stepRunsTheDecodedCommand : Obligations.StepRunsTheDecodedCommand :=
  ⟨fun _ _ _ _ hin hd => step_command hin hd, fun s nbits w _ hd => step_command (withFetchWord_inbox s nbits w) hd⟩

/-- Settles O5: the decoder turns the header away, and its answer is the response. -/
theorem illegalHeaderIsAnswered : Obligations.IllegalHeaderIsAnswered := by
  intro s c rest hin hc hillegal
  obtain ⟨r, hd⟩ := (decoderRejectsExactlyIllegalHeaders s.config c hc).mpr hillegal
  exact step_illegal hin hd

/-- Settles O7: the decoder finds no command, and the step refuses. -/
theorem malformedInputIsRefused : Obligations.MalformedInputIsRefused := by
  intro s c rest hin hlen
  exact step_notACommand hin ((decode_notACommand_iff s.config c).mpr hlen)

/-! One response to every command (R70). -/

/-- The outcome is a next state with the inputs of s still waiting and one more response than s, its payload short enough for RLEN
(R70, R76). -/
def AnswersOnce (s : State) (r : Result) : Prop :=
  ∃ t st q, r = .next t ∧ t.inbox = s.inbox ∧ t.outbox = s.outbox ++ [responseOf st q] ∧ q.length < 65536

theorem answersOnce_respond (s : State) (st : Status) {q : List Byte} (hq : q.length < 65536) :
    AnswersOnce s (.next (s.respond st q)) := ⟨_, st, q, rfl, rfl, rfl, hq⟩

theorem answersOnce_setSlot (s : State) (e : SlotIndex) (sl : Slot) (st : Status) {q : List Byte} (hq : q.length < 65536) :
    AnswersOnce s (.next ((s.setSlot e sl).respond st q)) := ⟨_, st, q, rfl, rfl, rfl, hq⟩

theorem answersOnce_withSlot {s : State} {e : SlotIndex} {k : Slot → Result}
    (hk : ∀ sl, s.slot? e = some sl → AnswersOnce s (k sl)) : AnswersOnce s (withSlot s e k) := by
  cases hs : s.slot? e with
  | none => rw [withSlot_none hs]; exact answersOnce_respond s .illegalCommand (by simp)
  | some sl => rw [withSlot_some hs]; exact hk sl hs

theorem answersOnce_withEngine {s : State} {e : SlotIndex} {k : Slot → Result} (hk : ∀ sl, AnswersOnce s (k sl)) :
    AnswersOnce s (withEngine s e k) := by
  refine answersOnce_withSlot fun sl _ => ?_
  split
  · exact answersOnce_respond s .noEngine (by simp)
  · exact hk sl

theorem answersOnce_withDebug {s : State} {r : Result} (hr : AnswersOnce s r) : AnswersOnce s (withDebug s r) := by
  cases hd : s.debugEn with
  | false => rw [withDebug_off hd]; exact answersOnce_respond s .illegalCommand (by simp)
  | true => rw [withDebug_on hd]; exact hr

/-- A descriptor of a legal registry asks for a 32-byte key (R170). -/
theorem keyLen_of_lookupId {r : List Descriptor} (hr : registryLegal r = true) {m : MethodId} {d : Descriptor}
    (hd : lookupId r m = some d) : d.keyLen = 32 := by
  have hmem : d ∈ r := List.mem_of_find?_eq_some hd
  simp only [registryLegal, Bool.and_eq_true, List.all_eq_true] at hr
  obtain ⟨⟨hall, -⟩, -⟩ := hr
  have hlegal := hall d hmem
  simp only [Descriptor.legal, Bool.and_eq_true, beq_iff_eq] at hlegal
  obtain ⟨⟨-, hkey⟩, -⟩ := hlegal
  exact hkey

theorem exec_answersOnce {i : Instr} {s : State} (hr : registryLegal s.registry = true) (hi : i.fits = true) :
    AnswersOnce s (exec i s) := by
  cases i with
  | resolve name =>
    rw [exec, execResolve_eq]
    cases lookupName s.registry name with
    | none => exact answersOnce_respond s .unsupportedMethod (by simp)
    | some d => exact answersOnce_respond s .ok (by simp)
  | create e m key nonce =>
    cases hs : s.slot? e with
    | none => rw [exec_slotOutOfRange rfl hs]; exact answersOnce_respond s .illegalCommand (by simp)
    | some sl =>
      rw [exec, execCreate_eq hs]
      cases hd : lookupId s.registry m with
      | none => exact answersOnce_setSlot s e _ .unsupportedMethod (by simp)
      | some d =>
        have hkeyLen : d.keyLen.toNat = 32 := by rw [keyLen_of_lookupId hr hd]; rfl
        simp only [hkeyLen]
        by_cases hbad : key.length ≠ 32 ∨ ¬(nonce.length = 8 ∨ nonce.length = 12)
        · rw [if_pos hbad]; exact answersOnce_setSlot s e _ .invalidParameter (by simp)
        · rw [if_neg hbad, if_neg fun h => hbad (.inl h)]; exact answersOnce_setSlot s e _ .ok (by simp)
  | update e data =>
    have hlen : data.length < 65536 := by simpa [Instr.fits, Nat.lt_succ_iff] using hi
    exact answersOnce_withEngine fun sl => answersOnce_setSlot s e _ .ok (by simpa [streamSlot_length] using hlen)
  | setiv e nonce =>
    refine answersOnce_withEngine fun sl => ?_
    split
    · exact answersOnce_setSlot s e _ .ok (by simp)
    · exact answersOnce_setSlot s e _ .invalidParameter (by simp)
  | destroy e =>
    refine answersOnce_withSlot fun sl _ => ?_
    split
    · exact answersOnce_respond s .ok (by simp)
    · exact answersOnce_setSlot s e _ .ok (by simp)
  | rdstate e => exact answersOnce_withDebug (answersOnce_withEngine fun sl => answersOnce_respond s .ok (by simp [slotReport]))
  | wrctr e lo hi => exact answersOnce_withDebug (answersOnce_withEngine fun sl => answersOnce_setSlot s e _ .ok (by simp))
  | qround a b c d => exact answersOnce_withDebug (answersOnce_respond s .ok (by simp))

/-- Settles O12: a command with an illegal header gets the error, and a legal one fits, so its meaning answers once. -/
theorem everyCommandGetsOneResponse : Obligations.EveryCommandGetsOneResponse := by
  intro s c rest hin hc hr
  have hanswers : AnswersOnce { s with inbox := rest } (step s) := by
    cases hd : decode s.config c with
    | error err =>
      cases err with
      | notACommand => exact absurd (beq_iff_eq.mp hc) ((decode_notACommand_iff s.config c).mp hd)
      | illegal r => rw [step_illegal hin hd]; exact answersOnce_respond _ .illegalCommand (by simp)
    | ok i =>
      obtain ⟨-, hi⟩ := acceptedCommandsAreEncodings s.config c i hd
      obtain ⟨hfits, -⟩ := (wellFormed_iff s.config i).mp hi
      rw [step_command hin hd]
      exact exec_answersOnce hr hfits
  obtain ⟨t, st, q, ht, hinbox, houtbox, hq⟩ := hanswers
  exact ⟨t, responseOf st q, ht, hinbox, houtbox, length_eq_statusWord_div st hq⟩

/-- Settles O30: the eight rows of the schedule. -/
theorem scheduleIsItsClosedForm : Obligations.ScheduleIsItsClosedForm := ⟨rfl, rfl, by decide⟩

end Sys2Proof.Machine
end

section
/-! SUPPORT. The word operations bit by bit (R100 to R102), and the quarter round as four steps of one form, each of which can be
taken back (R103, R104 (c)). -/

namespace Sys2Proof.Machine

/-! The word operations. -/

theorem add32_toNat (a b : Word) : (add32 a b).toNat = (a.toNat + b.toNat) % 2 ^ 32 := BitVec.toNat_add a b

theorem xor32_getLsbD (a b : Word) (i : Nat) : (xor32 a b).getLsbD i = (a.getLsbD i != b.getLsbD i) := BitVec.getLsbD_xor

theorem rotl32_eq_rotateLeft (v : Word) {n : Nat} (hn : n < 32) : rotl32 v n = v.rotateLeft n := by
  rw [rotl32, BitVec.rotateLeft_def, Nat.mod_eq_of_lt hn]

/-- The rotation takes bit i to bit (i + n) mod 32: past bit 31 it comes in again from below (R102). -/
theorem rotl32_getLsbD (v : Word) {n i : Nat} (hn : n < 32) (hi : i < 32) :
    (rotl32 v n).getLsbD ((i + n) % 32) = v.getLsbD i := by
  rw [rotl32_eq_rotateLeft v hn, BitVec.getLsbD_rotateLeft, Nat.mod_eq_of_lt hn]
  by_cases hwrap : i + n < 32
  · simp [Nat.mod_eq_of_lt hwrap, hwrap]
  · have hpos : (i + n) % 32 = i + n - 32 := by omega
    have hback : 32 - n + (i + n - 32) = i := by omega
    have hlow : i + n - 32 < n := by omega
    simp [hpos, hback, hlow]

/-- Two rotations whose distances make up 32 bring every bit back to its place. -/
theorem rotl32_rotl32_of_add_eq (v : Word) {n m : Nat} (hn : n < 32) (hm : m < 32) (hnm : n + m = 32) :
    rotl32 (rotl32 v n) m = v := by
  refine BitVec.eq_of_getLsbD_eq fun i hi => ?_
  have hturn : i = ((i + n) % 32 + m) % 32 := by omega
  calc (rotl32 (rotl32 v n) m).getLsbD i
      = (rotl32 (rotl32 v n) m).getLsbD (((i + n) % 32 + m) % 32) := by rw [← hturn]
    _ = (rotl32 v n).getLsbD ((i + n) % 32) := rotl32_getLsbD _ hm (Nat.mod_lt _ (by decide))
    _ = v.getLsbD i := rotl32_getLsbD v hn hi

@[simp] theorem add32_sub_cancel (a b : Word) : add32 a b - b = a := BitVec.add_sub_cancel a b

@[simp] theorem add32_sub_add_cancel (a b : Word) : add32 (a - b) b = a := BitVec.sub_add_cancel a b

@[simp] theorem xor32_xor32_cancel (a b : Word) : xor32 (xor32 a b) b = a := by simp [xor32]

/-- Settles O27: one law for each of the three operations. -/
theorem wordOperationsAreModularAndBitwise : Obligations.WordOperationsAreModularAndBitwise :=
  ⟨add32_toNat, xor32_getLsbD, fun v _ _ _ hn hi => rotl32_getLsbD v hn hi⟩

/-! The quarter round. -/

/-- Three of the twelve steps: add the second word to the first, exclusive-or the sum into the fourth and rotate that by n. The
result stands with the two halves exchanged, so that the next three steps have the same form (R103). -/
def quarterStep (n : Nat) : Word × Word × Word × Word → Word × Word × Word × Word
  | (a, b, c, d) => (c, rotl32 (xor32 d (add32 a b)) n, add32 a b, b)

/-- quarterStep taken back: rotate on to a full turn, exclusive-or the sum again, subtract. -/
def quarterStepBack (n : Nat) : Word × Word × Word × Word → Word × Word × Word × Word
  | (c, d, a, b) => (a - b, b, c, xor32 (rotl32 d (32 - n)) a)

theorem quarterRound_eq_quarterSteps (x : Word × Word × Word × Word) :
    quarterRound x.1 x.2.1 x.2.2.1 x.2.2.2 = quarterStep 7 (quarterStep 8 (quarterStep 12 (quarterStep 16 x))) := rfl

theorem quarterStepBack_quarterStep {n : Nat} (h0 : 0 < n) (hn : n < 32) :
    Function.LeftInverse (quarterStepBack n) (quarterStep n) := by
  rintro ⟨a, b, c, d⟩
  have hrot := rotl32_rotl32_of_add_eq (xor32 d (add32 a b)) hn (m := 32 - n) (by omega) (by omega)
  simp [quarterStep, quarterStepBack, hrot]

theorem quarterStep_quarterStepBack {n : Nat} (h0 : 0 < n) (hn : n < 32) :
    Function.RightInverse (quarterStepBack n) (quarterStep n) := by
  rintro ⟨c, d, a, b⟩
  have hrot := rotl32_rotl32_of_add_eq d (n := 32 - n) (m := n) (by omega) hn (by omega)
  simp [quarterStep, quarterStepBack, hrot]

theorem quarterStep_bijective {n : Nat} (h0 : 0 < n) (hn : n < 32) : Function.Bijective (quarterStep n) :=
  ⟨(quarterStepBack_quarterStep h0 hn).injective, (quarterStep_quarterStepBack h0 hn).surjective⟩

/-- Settles O29: the four steps are bijections, and so is their composition. -/
theorem quarterRoundIsBijective : Obligations.QuarterRoundIsBijective := by
  have h16 : Function.Bijective (quarterStep 16) := quarterStep_bijective (by decide) (by decide)
  have h12 : Function.Bijective (quarterStep 12) := quarterStep_bijective (by decide) (by decide)
  have h8 : Function.Bijective (quarterStep 8) := quarterStep_bijective (by decide) (by decide)
  have h7 : Function.Bijective (quarterStep 7) := quarterStep_bijective (by decide) (by decide)
  unfold Obligations.QuarterRoundIsBijective
  simp only [quarterRound_eq_quarterSteps]
  exact h7.comp (h8.comp (h12.comp h16))

/-- Settles O28: each intermediate value is the one its equation fixes, and QR answers the last of each word. -/
theorem quarterRoundRunsTwelveSteps : Obligations.QuarterRoundRunsTwelveSteps := by
  intro a b c d
  exact ⟨_, _, _, _, _, _, _, _, _, _, _, _, rfl, rfl, rfl, rfl, rfl, rfl, rfl, rfl, rfl, rfl, rfl, rfl, rfl⟩

end Sys2Proof.Machine
end

section
/-! SUPPORT. The block function: the groups of a half share no register (R83), so its quarter rounds run in any order (R125);
PERMUTE as an iterate (R124); FEEDFWD and SERIALIZE entry by entry (R126, R127). -/

namespace Sys2Proof.Machine

/-! The groups of the schedule (R83). -/

/-- The groups of a list have four registers each, and two of them that share a register are the same. -/
structure LanesDisjoint (groups : List RegGroup) : Prop where
  distinct : ∀ g ∈ groups, GroupDistinct g
  disjoint : ∀ g ∈ groups, ∀ h ∈ groups, g ≠ h → ∀ i, GroupHas g i → ¬ GroupHas h i

theorem lanesDisjoint_columnGroups : LanesDisjoint columnGroups where
  distinct := by simp [columnGroups, GroupDistinct]
  disjoint := by unfold GroupHas; decide

theorem lanesDisjoint_diagonalGroups : LanesDisjoint diagonalGroups where
  distinct := by simp [diagonalGroups, GroupDistinct]
  disjoint := by unfold GroupHas; decide

theorem groupDistinct_of_mem_schedule {g : RegGroup} (hg : g ∈ columnGroups ++ diagonalGroups) : GroupDistinct g :=
  (List.mem_append.mp hg).elim (lanesDisjoint_columnGroups.distinct g) (lanesDisjoint_diagonalGroups.distinct g)

/-! Steps of the schedule (R123 to R125). -/

/-- Any two steps of the list commute, so every order of them ends alike (R125). -/
theorem LanesDisjoint.foldl_eq_of_perm {groups l : List RegGroup} (hd : LanesDisjoint groups) (hl : l.Perm groups)
    (x : Vector Word 16) : l.foldl quarterRoundAt x = groups.foldl quarterRoundAt x := by
  refine hl.foldl_eq' (fun g hg h hh y => ?_) x
  have hg' : g ∈ groups := hl.mem_iff.mp hg
  have hh' : h ∈ groups := hl.mem_iff.mp hh
  by_cases hgh : g = h
  · rw [hgh]
  · exact quarterRoundAt_comm y g h (hd.distinct g hg') (hd.distinct h hh') (hd.disjoint g hg' h hh' hgh)

/-- Settles O32: the groups of either half share no register. -/
theorem lanesOfAHalfCommute : Obligations.LanesOfAHalfCommute := fun x _ =>
  ⟨fun hl => lanesDisjoint_columnGroups.foldl_eq_of_perm hl x, fun hl => lanesDisjoint_diagonalGroups.foldl_eq_of_perm hl x⟩

theorem doubleRound_eq_foldl (x : Vector Word 16) :
    doubleRound x = (columnGroups ++ diagonalGroups).foldl quarterRoundAt x := by
  rw [doubleRound, List.foldl_append]

theorem doubleRounds_eq_iterate (n : Nat) (x : Vector Word 16) : doubleRounds n x = doubleRound^[n] x := by
  induction n generalizing x with
  | zero => rfl
  | succ n ih => rw [doubleRounds, ih, Function.iterate_succ_apply]

/-- Settles O31: a group of the schedule has four registers, which take the four results of QR. -/
theorem permuteRunsTheSchedule : Obligations.PermuteRunsTheSchedule := by
  refine ⟨fun x g hg => ⟨?_, fun i ha hb hc hd => ?_⟩, doubleRound_eq_foldl, doubleRounds_eq_iterate 10⟩
  · obtain ⟨ha, hb, hc, hd⟩ := quarterRoundAt_group x g (groupDistinct_of_mem_schedule hg)
    rw [ha, hb, hc, hd]
  · exact quarterRoundAt_other x g i (by simp [GroupHas, ha, hb, hc, hd])

/-! The keystream block (R126, R127). -/

theorem feedForward_getElem (x st : Vector Word 16) (i : Nat) (hi : i < 16) :
    (feedForward x st)[i] = add32 x[i] st[i] := by
  simp [feedForward]

theorem serialize_getElem (y : Vector Word 16) (j : Nat) (hj : j < 64) :
    (serialize y)[j] = wordByte y[j / 4] (j % 4) := by
  simp [serialize]

/-- Settles O33: byte j is a digit of word j / 4, and that word is the sum FEEDFWD leaves. -/
theorem keystreamBlockIsTheSerializedSum : Obligations.KeystreamBlockIsTheSerializedSum := by
  intro st j hj
  rw [keystreamBlock, serialize_getElem _ j hj, wordByte_toNat, feedForward_getElem, add32_toNat]

/-! The counter and BLOCK (R129 to R131). -/

/-- Settles O34: each word as CTRINC leaves it, and the pair of words 12 and 13 as one number. -/
theorem counterIncrementCarriesIntoWord13 : Obligations.CounterIncrementCarriesIntoWord13 := by
  intro st
  refine ⟨counterIncrement_word12 st, ?_, fun i => counterIncrement_other st i i.isLt, counterValue_increment st⟩
  rw [counterIncrement_word12, counterIncrement_word13]

/-- Settles O38: BLOCK writes the buffer, the cursor and what CTRINC writes. -/
theorem blockRefillsAndAdvances : Obligations.BlockRefillsAndAdvances := fun sl =>
  ⟨block_buf sl, block_cur sl, counterIncrement_word12 sl.st, counterIncrement_word13 sl.st,
    fun i => counterIncrement_other sl.st i i.isLt, block_phase sl, block_mid sl⟩

end Sys2Proof.Machine
end

section
/-! SUPPORT. UPDATE in closed form (R150 to R152): the bytes a slot has ready, one for each input byte to come; so an UPDATE after
an UPDATE is one UPDATE of both inputs, and a run of them follows the slot's keystream (R154, R155). -/

namespace Sys2Proof.Machine

/-! The bytes a slot has ready. -/

/-- The buffer after q refills (R152). -/
def refilledBuf (sl : Slot) (q : Nat) : Vector Byte 64 :=
  if q = 0 then sl.buf else keystreamBlock (counterAfter (q - 1) sl.st)

/-- The byte XORed to input byte i of the UPDATEs to come (R150, R151). -/
def readyByte (sl : Slot) (i : Nat) : Byte := bufferByte (refilledBuf sl ((sl.cur.val + i) / 64)) (sl.cur.val + i)

/-- An input XOR the bytes a slot has ready (R142, R150). -/
def xorReady (sl : Slot) (data : List Byte) : List Byte := data.mapIdx fun i x => xorLane x (readyByte sl i)

@[simp] theorem refilledBuf_zero (sl : Slot) : refilledBuf sl 0 = sl.buf := rfl

theorem refilledBuf_succ (sl : Slot) (q : Nat) : refilledBuf sl (q + 1) = keystreamBlock (counterAfter q sl.st) := rfl

theorem refilledBuf_block (sl : Slot) (q : Nat) : refilledBuf (block sl) q = refilledBuf sl (q + 1) := by
  cases q with
  | zero => rw [refilledBuf_zero, block_buf, refilledBuf_succ, counterAfter]
  | succ q => rw [refilledBuf_succ, refilledBuf_succ, block_st, counterAfter_increment]

/-- A refill leaves ready what comes after the unread bytes. -/
theorem readyByte_block (sl : Slot) (i : Nat) : readyByte (block sl) i = readyByte sl (64 - sl.cur.val + i) := by
  have hpos : sl.cur.val + (64 - sl.cur.val + i) = 64 + i := by omega
  have hblock : (64 + i) / 64 = i / 64 + 1 := by omega
  simp only [readyByte, block_cur, Fin.val_zero, Nat.zero_add, refilledBuf_block, hpos, hblock]
  exact bufferByte_congr _ (by omega)

theorem unreadBytes_getElem (sl : Slot) {i : Nat} (h : i < 64 - sl.cur.val) (h' : i < (unreadBytes sl).length) :
    (unreadBytes sl)[i] = readyByte sl i := by
  have hlt : sl.cur.val + i < 64 := by omega
  have hget := unreadBytes_getD sl i hlt
  rw [List.getD_eq_getElem _ _ h'] at hget
  rw [hget, readyByte, Nat.div_eq_of_lt hlt, refilledBuf_zero]

@[simp] theorem xorReady_nil (sl : Slot) : xorReady sl [] = [] := rfl

@[simp] theorem length_xorReady (sl : Slot) (data : List Byte) : (xorReady sl data).length = data.length := by simp [xorReady]

theorem getD_xorReady (sl : Slot) (data : List Byte) {i : Nat} (h : i < data.length) :
    (xorReady sl data).getD i 0 = data.getD i 0 ^^^ readyByte sl i := by
  simp [xorReady, List.getD_eq_getElem?_getD, h, xorLane]

theorem xorReady_append_of {sl sl' : Slot} {a : List Byte} (h : ∀ i, readyByte sl' i = readyByte sl (a.length + i))
    (b : List Byte) : xorReady sl (a ++ b) = xorReady sl a ++ xorReady sl' b := by
  simp only [xorReady, List.mapIdx_append, h, Nat.add_comm]

theorem zipWith_unreadBytes (sl : Slot) (data : List Byte) (h : data.length ≤ 64 - sl.cur.val) :
    List.zipWith xorLane data (unreadBytes sl) = xorReady sl data := by
  refine List.ext_getElem (by simp [h]) fun i _ hi => ?_
  rw [length_xorReady] at hi
  simp [xorReady, unreadBytes_getElem sl (Nat.lt_of_lt_of_le hi h)]

/-- The output of UPDATE's transform in closed form: by passes, the tail and each refill XOR the bytes the slot has ready. -/
theorem streamSlot_output (sl : Slot) (data : List Byte) : (streamSlot sl data).2 = xorReady sl data := by
  induction sl, data using stream_induction with
  | tail sl data h => rw [streamSlot_tail _ _ h]; exact zipWith_unreadBytes sl data (by omega)
  | refill sl data h ih =>
    have hlen : (data.take (64 - sl.cur.val)).length = 64 - sl.cur.val := List.length_take_of_le h
    rw [streamSlot_refill _ _ h, zipWith_unreadBytes sl _ hlen.le, ih,
      ← xorReady_append_of (fun i => by rw [readyByte_block, hlen]), List.take_append_drop]

/-! The slot an UPDATE leaves (R152). -/

@[simp] theorem streamedSlot_phase (sl : Slot) (data : List Byte) : (streamedSlot sl data).phase = .stream := rfl

theorem streamedSlot_mid (sl : Slot) (data : List Byte) : (streamedSlot sl data).mid = sl.mid := streamSlot_mid sl data

theorem streamedSlot_draws (sl : Slot) (data : List Byte) : (streamedSlot sl data).draws = sl.draws := streamSlot_draws sl data

theorem streamedSlot_cur (sl : Slot) (data : List Byte) :
    (streamedSlot sl data).cur.val = (sl.cur.val + data.length) % 64 := by
  obtain ⟨h, -, -⟩ := streamSlot_end sl data
  exact h

theorem streamedSlot_st (sl : Slot) (data : List Byte) :
    (streamedSlot sl data).st = counterAfter ((sl.cur.val + data.length) / 64) sl.st := by
  obtain ⟨-, h, -⟩ := streamSlot_end sl data
  exact h

theorem streamedSlot_buf (sl : Slot) (data : List Byte) :
    (streamedSlot sl data).buf = refilledBuf sl ((sl.cur.val + data.length) / 64) := by
  obtain ⟨-, -, h⟩ := streamSlot_end sl data
  exact h

/-- Refills after an UPDATE go on where its own ended. -/
theorem refilledBuf_streamedSlot (sl : Slot) (data : List Byte) (q : Nat) :
    refilledBuf (streamedSlot sl data) q = refilledBuf sl (q + (sl.cur.val + data.length) / 64) := by
  cases q with
  | zero => rw [refilledBuf_zero, streamedSlot_buf, Nat.zero_add]
  | succ q => rw [Nat.add_right_comm, refilledBuf_succ, refilledBuf_succ, streamedSlot_st, counterAfter_add]

theorem readyByte_streamedSlot (sl : Slot) (data : List Byte) (i : Nat) :
    readyByte (streamedSlot sl data) i = readyByte sl (data.length + i) := by
  have hblock : ((sl.cur.val + data.length) % 64 + i) / 64 + (sl.cur.val + data.length) / 64
      = (sl.cur.val + (data.length + i)) / 64 := by omega
  simp only [readyByte, refilledBuf_streamedSlot, streamedSlot_cur, hblock]
  exact bufferByte_congr _ (by omega)

theorem xorReady_append (sl : Slot) (a b : List Byte) :
    xorReady sl (a ++ b) = xorReady sl a ++ xorReady (streamedSlot sl a) b :=
  xorReady_append_of (readyByte_streamedSlot sl a) b

theorem slot_ext {a b : Slot} (hphase : a.phase = b.phase) (hmid : a.mid = b.mid) (hst : a.st = b.st) (hbuf : a.buf = b.buf)
    (hcur : a.cur.val = b.cur.val) (hdraws : a.draws = b.draws) : a = b := by
  cases a; cases b
  simp only [Slot.mk.injEq]
  exact ⟨hphase, hmid, hst, hbuf, Fin.ext hcur, hdraws⟩

/-- Two UPDATEs leave what one UPDATE of both inputs leaves. -/
theorem streamedSlot_append (sl : Slot) (a b : List Byte) :
    streamedSlot (streamedSlot sl a) b = streamedSlot sl (a ++ b) := by
  have hrefills : ((sl.cur.val + a.length) % 64 + b.length) / 64 + (sl.cur.val + a.length) / 64
      = (sl.cur.val + (a.length + b.length)) / 64 := by omega
  refine slot_ext rfl ?_ ?_ ?_ ?_ ?_
  · simp only [streamedSlot_mid]
  · rw [streamedSlot_st, streamedSlot_st, streamedSlot_st, streamedSlot_cur, ← counterAfter_add, hrefills, List.length_append]
  · rw [streamedSlot_buf, streamedSlot_buf, refilledBuf_streamedSlot, streamedSlot_cur, hrefills, List.length_append]
  · simp only [streamedSlot_cur, List.length_append]; omega
  · simp only [streamedSlot_draws]

/-! A slot at a position of a keystream (R154, R157). -/

theorem StreamAt.refilledBuf {s1 : Vector Word 16} {pos : Nat} {sl : Slot} (h : StreamAt s1 pos sl) (q : Nat) :
    refilledBuf sl q = keystreamBlock (counterAfter (q + pos / 64) s1) := by
  cases q with
  | zero => rw [refilledBuf_zero, h.buffer, Nat.zero_add]
  | succ q => rw [refilledBuf_succ, h.words, ← counterAfter_add, Nat.add_right_comm, Nat.add_assoc]

/-- At position pos the bytes ready are the keystream from pos on. -/
theorem StreamAt.readyByte {s1 : Vector Word 16} {pos : Nat} {sl : Slot} (h : StreamAt s1 pos sl) (i : Nat) :
    readyByte sl i = keystreamByte s1 (pos + i) := by
  have hblock : (pos % 64 + i) / 64 + pos / 64 = (pos + i) / 64 := by omega
  rw [Machine.readyByte, h.refilledBuf, h.cursor, hblock, keystreamByte]
  exact bufferByte_congr _ (by omega)

theorem StreamAt.streamedSlot {s1 : Vector Word 16} {pos : Nat} {sl : Slot} (h : StreamAt s1 pos sl) (data : List Byte) :
    StreamAt s1 (pos + data.length) (streamedSlot sl data) where
  words := by
    rw [streamedSlot_st, h.words, h.cursor, ← counterAfter_add]
    congr 1; omega
  buffer := by
    rw [streamedSlot_buf, h.refilledBuf, h.cursor]
    congr 2; omega
  cursor := by rw [streamedSlot_cur, h.cursor, Nat.mod_add_mod]

/-- The same bytes ready twice cancel (R155). -/
theorem xorReady_xorReady {a b : Slot} (h : ∀ i, readyByte b i = readyByte a i) (data : List Byte) :
    xorReady b (xorReady a data) = data := by
  refine List.ext_getElem (by simp) fun i _ _ => ?_
  simp [xorReady, xorLane, h]

/-! Runs of UPDATEs. -/

theorem exec_update_live {s : State} {e : SlotIndex} {sl : Slot} (hs : s.slot? e = some sl) (hp : sl.phase ≠ .uninit)
    (data : List Byte) :
    exec (.update e data) s = .next ((s.setSlot e (streamedSlot sl data)).respond .ok (xorReady sl data)) := by
  rw [exec, execUpdate_eq hs hp, streamSlot_output]

theorem slots_set_self {s : State} {e : SlotIndex} {sl : Slot} (h : s.slot? e = some sl) : s.slots.set e.toNat sl = s.slots := by
  obtain ⟨he, rfl⟩ := List.getElem?_eq_some_iff.mp h
  exact List.set_getElem_self he

/-- A run of UPDATEs on an engine returns all inputs XOR the bytes it has ready, and leaves the slot its UPDATEs leave in turn. -/
theorem runUpdates_live {s : State} {e : SlotIndex} {sl : Slot} (chunks : List (List Byte)) (hs : s.slot? e = some sl)
    (hp : sl.phase ≠ .uninit) :
    ∃ t, runUpdates e chunks s = some (t, xorReady sl chunks.flatten) ∧
      t.slots = s.slots.set e.toNat (chunks.foldl streamedSlot sl) := by
  induction chunks generalizing s sl with
  | nil => exact ⟨s, rfl, (slots_set_self hs).symm⟩
  | cons d ds ih =>
    obtain ⟨t, ht, hslots⟩ := ih (s := (s.setSlot e (streamedSlot sl d)).respond .ok (xorReady sl d))
      (slot?_setSlot_self hs _) (by simp)
    refine ⟨t, ?_, by simpa using hslots⟩
    rw [List.flatten_cons, xorReady_append]
    simp [runUpdates, exec_update_live hs hp, ht, responseOf]

/-- The UPDATEs of one or more parts leave what one UPDATE of the whole leaves. -/
theorem foldl_streamedSlot (sl : Slot) (d : List Byte) (ds : List (List Byte)) :
    (d :: ds).foldl streamedSlot sl = streamedSlot sl (d :: ds).flatten := by
  induction ds generalizing d sl with
  | nil => simp
  | cons d' ds ih => rw [List.foldl_cons, ih, streamedSlot_append, ← List.flatten_cons]

theorem StreamAt.foldl_streamedSlot {s1 : Vector Word 16} {pos : Nat} {sl : Slot} (h : StreamAt s1 pos sl)
    (chunks : List (List Byte)) :
    StreamAt s1 (pos + chunks.flatten.length) (chunks.foldl Machine.streamedSlot sl) := by
  cases chunks with
  | nil => exact h
  | cons d ds => rw [Machine.foldl_streamedSlot]; exact h.streamedSlot _

/-- Settles O49: the run XORs the bytes the slot has ready, which are the keystream's, and each part moves the position. -/
theorem updatesFollowTheKeystream : Obligations.UpdatesFollowTheKeystream := by
  intro s1 pos s e sl chunks hs hp hat
  obtain ⟨t, ht, hslots⟩ := runUpdates_live chunks hs hp
  have hslot : t.slot? e = some (chunks.foldl streamedSlot sl) := by
    rw [State.slot?, hslots]; exact slot?_setSlot_self hs _
  refine ⟨t, _, _, ht, hslot, hat.foldl_streamedSlot chunks, length_xorReady sl _, fun i hi => ?_⟩
  rw [getD_xorReady sl _ hi, hat.readyByte]

/-- Settles O50: both sides XOR the bytes the slot has ready, and the parts leave what the whole leaves. -/
theorem chunkingIsInvisible : Obligations.ChunkingIsInvisible := by
  intro s e sl chunks hs hp hne
  obtain ⟨d, ds, rfl⟩ := List.exists_cons_of_ne_nil hne
  obtain ⟨t, ht, hslots⟩ := runUpdates_live (d :: ds) hs hp
  refine ⟨t, _, _, ht, exec_update_live hs hp _, ?_, rfl⟩
  rw [hslots, foldl_streamedSlot]; rfl

/-- Settles O51: both slots have the same keystream bytes ready, which cancel. -/
theorem decryptionInvertsEncryption : Obligations.DecryptionInvertsEncryption := by
  intro s1 pos s s' e e' a b xs ys t y hs hpa ha hs' hpb hb hrun hys
  obtain ⟨u, hu, -⟩ := runUpdates_live xs hs hpa
  obtain ⟨t', ht', -⟩ := runUpdates_live ys hs' hpb
  obtain ⟨-, hy⟩ : t = u ∧ y = xorReady a xs.flatten := by simpa [hu, eq_comm] using hrun
  refine ⟨t', ?_⟩
  rw [ht', hys, hy, xorReady_xorReady fun i => by rw [hb.readyByte, ha.readyByte]]

/-- Settles O47: the slot UPDATE leaves, field by field. -/
theorem updateRefillsAndMovesTheCursor : Obligations.UpdateRefillsAndMovesTheCursor := by
  intro s e sl data hs hp
  exact ⟨_, _, exec_update_live hs hp data, onlySlotChanged_setSlot s e _ _ _, slot?_setSlot_self hs _, rfl,
    streamedSlot_mid sl data, streamedSlot_cur sl data, streamedSlot_st sl data, streamedSlot_buf sl data⟩

/-- Settles O48: output byte i is input byte i XOR the byte ready for it. -/
theorem updateXorsBufferThenBlocks : Obligations.UpdateXorsBufferThenBlocks := by
  intro s e sl data hs hp
  refine ⟨_, _, exec_update_live hs hp data, rfl, length_xorReady sl data, fun i hi => ?_⟩
  rw [getD_xorReady sl data hi, readyByte, refilledBuf]
  simp only [Nat.div_eq_zero_iff_lt (show 0 < 64 by decide)]

/-- With no input and the cursor below 64 there is nothing to refill, and the slot is only marked (R156). -/
theorem streamedSlot_nil {sl : Slot} (h : sl.cur.val ≤ 63) : streamedSlot sl [] = { sl with phase := .stream } := by
  have htail : ¬ 64 - sl.cur.val ≤ ([] : List Byte).length := by simp; omega
  rw [streamedSlot, streamSlot_tail _ _ htail]; rfl

/-- Settles O52: an empty input gives an empty output and the slot only marked. -/
theorem emptyUpdateOnlyMarksTheSlot : Obligations.EmptyUpdateOnlyMarksTheSlot := by
  intro s e sl hs hp hcur
  rw [exec_update_live hs hp, streamedSlot_nil hcur, xorReady_nil]; rfl

end Sys2Proof.Machine
end

section
/-! SUPPORT. The lifecycle of a slot (R143): the words STATEINIT and SETNONCE write (R140, R141), what CREATE, SETIV and DESTROY
leave (R144 to R146, R160 to R162, R165), and the phase after each slot-addressed command. -/

namespace Sys2Proof.Machine

/-! The words STATEINIT and SETNONCE write (R140, R141). -/

theorem stateInit_key (st : Vector Word 16) (key : List Byte) (i : Fin 8) :
    (stateInit st key)[4 + i.val] = wordAt key i.val := by
  fin_cases i <;> rfl

theorem setNonce_word12 (st : Vector Word 16) (nonce : List Byte) : (setNonce st nonce)[12] = 0 := by
  unfold setNonce; split <;> simp

/-- The classic layout: word 13 is the counter's high half (R24). -/
theorem setNonce_of_length_eq_8 (st : Vector Word 16) {nonce : List Byte} (h : nonce.length = 8) :
    (setNonce st nonce)[13] = 0 ∧ (setNonce st nonce)[14] = wordAt nonce 0 ∧ (setNonce st nonce)[15] = wordAt nonce 1 := by
  simp [setNonce, h]

/-- The extended layout: word 13 is the first word of the nonce (R24). -/
theorem setNonce_of_length_eq_12 (st : Vector Word 16) {nonce : List Byte} (h : nonce.length = 12) :
    (setNonce st nonce)[13] = wordAt nonce 0 ∧ (setNonce st nonce)[14] = wordAt nonce 1 ∧
      (setNonce st nonce)[15] = wordAt nonce 2 := by
  simp [setNonce, h]

/-- Settles O40: SETNONCE leaves the words STATEINIT wrote, and writes the rest by the nonce's length. -/
theorem keyAndNonceFillTheWords : Obligations.KeyAndNonceFillTheWords := by
  intro st key nonce _ _
  refine ⟨fun i => ?_, fun i => ?_, setNonce_word12 _ nonce, setNonce_of_length_eq_8 _, setNonce_of_length_eq_12 _⟩
  · rw [setNonce_stateInit, streamStart_sigma]
  · rw [setNonce_other _ _ _ (by omega), stateInit_key]; rfl

/-! What CREATE, SETIV and DESTROY leave. -/

/-- Words 0 to 11 are all SETNONCE takes from a slot, so those of a key give its fresh words (R162). -/
theorem setNonce_eq_streamStart {st : Vector Word 16} {key nonce : List Byte}
    (h : ∀ k : Fin 12, st[k.val] = (streamStart key nonce)[k.val]) : setNonce st nonce = streamStart key nonce :=
  setNonce_eq_of_prefix nonce fun k => by rw [h k, streamStart, setNonce_other _ _ _ k.isLt]

theorem execCreate_unknownMethod {s : State} {e : SlotIndex} {sl : Slot} {m : MethodId} (key nonce : List Byte)
    (hs : s.slot? e = some sl) (hm : lookupId s.registry m = none) :
    execCreate e m key nonce s = .next ((s.invalidate e sl).respond .unsupportedMethod []) := by
  rw [execCreate_eq hs, hm]

theorem execCreate_badLength {s : State} {e : SlotIndex} {sl : Slot} {m : MethodId} {d : Descriptor} {key nonce : List Byte}
    (hs : s.slot? e = some sl) (hm : lookupId s.registry m = some d)
    (hbad : key.length ≠ d.keyLen.toNat ∨ ¬(nonce.length = 8 ∨ nonce.length = 12)) :
    execCreate e m key nonce s = .next ((s.invalidate e sl).respond .invalidParameter []) := by
  rw [execCreate_eq hs, hm]
  exact if_pos hbad

theorem execSetiv_badLength {s : State} {e : SlotIndex} {sl : Slot} {nonce : List Byte} (hs : s.slot? e = some sl)
    (hp : sl.phase ≠ .uninit) (hbad : ¬(nonce.length = 8 ∨ nonce.length = 12)) :
    execSetiv e nonce s = .next ((s.invalidate e sl).respond .invalidParameter []) := by
  rw [execSetiv_eq hs hp, if_neg hbad]

theorem slot?_invalidate_self {s : State} {e : SlotIndex} {sl : Slot} (h : s.slot? e = some sl) :
    (s.invalidate e sl).slot? e = some (freedSlot e.toNat sl.draws) := slot?_setSlot_self h _

/-- Settles O41: the three ends of CREATE, in the order of its checks. -/
theorem createConstructsOrEmptiesTheSlot : Obligations.CreateConstructsOrEmptiesTheSlot := by
  intro s e sl m key nonce hs
  refine ⟨fun hm => ?_, fun d hm => ⟨fun hbad => ?_, fun hkey h32 hnonce => ?_⟩⟩
  · exact ⟨_, _, execCreate_unknownMethod key nonce hs hm, onlySlotChanged_setSlot s e _ _ _, rfl, slot?_invalidate_self hs, rfl⟩
  · exact ⟨_, _, execCreate_badLength hs hm (by rwa [not_or]), onlySlotChanged_setSlot s e _ _ _, rfl,
      slot?_invalidate_self hs, rfl⟩
  · exact ⟨_, _, execCreate_ok hs hm hkey h32 hnonce, onlySlotChanged_setSlot s e _ _ _, rfl, slot?_setSlot_self hs _, rfl, rfl,
      rfl, createdSlot_st sl m key nonce, createdSlot_buf sl m key nonce⟩

/-- Settles O43: the two ends of SETIV on an engine. -/
theorem setivRekeysOrEmptiesTheSlot : Obligations.SetivRekeysOrEmptiesTheSlot := by
  intro s e sl nonce hs hp
  refine ⟨fun hnonce => ?_, fun hbad => ?_⟩
  · exact ⟨_, _, execSetiv_ok hs hp hnonce, onlySlotChanged_setSlot s e _ _ _, rfl, slot?_setSlot_self hs _, rfl, rfl, rfl,
      resyncedSlot_st sl nonce, resyncedSlot_buf sl nonce, fun k => resyncedSlot_st_lt12 sl nonce k k.isLt⟩
  · exact ⟨_, _, execSetiv_badLength hs hp (not_or.mpr hbad), onlySlotChanged_setSlot s e _ _ _, rfl,
      slot?_invalidate_self hs, rfl⟩

/-- Settles O44: both slots end in a BLOCK from the same words. -/
theorem resyncEqualsAFreshEngine : Obligations.ResyncEqualsAFreshEngine := by
  intro s s' e e' sl sl0 m d key nonce hs hp hwords hnonce hs' hm hkey h32
  have hst : setNonce sl.st nonce = streamStart key nonce := setNonce_eq_streamStart hwords
  refine ⟨_, _, _, _, execSetiv_ok hs hp hnonce, execCreate_ok hs' hm hkey h32 hnonce, slot?_setSlot_self hs _,
    slot?_setSlot_self hs' _, ?_, ?_, rfl⟩
  · rw [resyncedSlot_st, createdSlot_st, hst]
  · rw [resyncedSlot_buf, createdSlot_buf, hst]

/-- Settles O45: DESTROY frees an engine and leaves an UNINIT slot alone. -/
theorem destroyEmptiesTheSlot : Obligations.DestroyEmptiesTheSlot := by
  intro s e sl hs
  by_cases hp : sl.phase = .uninit
  · have hexec : exec (.destroy e) s = .next (s.respond .ok []) := by rw [exec, execDestroy_eq hs, if_pos hp]
    exact ⟨_, sl, hexec, onlySlotChanged_respond s e _ _, rfl, hs, hp, fun _ => rfl⟩
  · have hexec : exec (.destroy e) s = .next ((s.invalidate e sl).respond .ok []) := by
      rw [exec, execDestroy_eq hs, if_neg hp]
    exact ⟨_, _, hexec, onlySlotChanged_setSlot s e _ _ _, rfl, slot?_invalidate_self hs, rfl, fun h => absurd h hp⟩

/-! The phase after a command (R143). -/

/-- If r is a next state, slot e has there the phase R143 gives it after instruction i, which found it in phase p, with one more
response than s. -/
def FollowsLifecycle (i : Instr) (p : Phase) (s : State) (e : SlotIndex) (r : Result) : Prop :=
  ∀ t, r = .next t → ∃ sl' q, t.slot? e = some sl' ∧ t.outbox = s.outbox ++ [q] ∧
    sl'.phase = phaseAfter i (statusField q.status == 0) p

section
variable {i : Instr} {p : Phase} {s : State} {e : SlotIndex} {sl : Slot} {st : Status} {q : List Byte}

theorem followsLifecycle_respond (hs : s.slot? e = some sl) (hphase : sl.phase = phaseAfter i (statusCode st == 0) p) :
    FollowsLifecycle i p s e (.next (s.respond st q)) := by
  rintro _ ⟨⟩
  exact ⟨sl, _, hs, rfl, by rw [hphase, responseOf, statusField_statusWord]⟩

theorem followsLifecycle_setSlot {sl' : Slot} (hs : s.slot? e = some sl)
    (hphase : sl'.phase = phaseAfter i (statusCode st == 0) p) :
    FollowsLifecycle i p s e (.next ((s.setSlot e sl').respond st q)) :=
  fun t ht => followsLifecycle_respond (s := s.setSlot e sl') (slot?_setSlot_self hs sl') hphase t ht

theorem followsLifecycle_invalidate (hs : s.slot? e = some sl) (hphase : .uninit = phaseAfter i (statusCode st == 0) p) :
    FollowsLifecycle i p s e (.next ((s.invalidate e sl).respond st q)) :=
  followsLifecycle_setSlot hs hphase

theorem followsLifecycle_withEngine {k : Slot → Result} (hs : s.slot? e = some sl)
    (hempty : sl.phase = .uninit → sl.phase = phaseAfter i false p)
    (hk : sl.phase ≠ .uninit → FollowsLifecycle i p s e (k sl)) : FollowsLifecycle i p s e (withEngine s e k) := by
  by_cases hp : sl.phase = .uninit
  · rw [withEngine_empty hs hp]; exact followsLifecycle_respond hs (hempty hp)
  · rw [withEngine_live hs hp]; exact hk hp

theorem followsLifecycle_withDebug {r : Result} (hs : s.slot? e = some sl) (hoff : sl.phase = phaseAfter i false p)
    (hr : FollowsLifecycle i p s e r) : FollowsLifecycle i p s e (withDebug s r) := by
  cases hd : s.debugEn with
  | false => rw [withDebug_off hd]; exact followsLifecycle_respond hs hoff
  | true => rw [withDebug_on hd]; exact hr

end

theorem exec_followsLifecycle {i : Instr} {s : State} {e : SlotIndex} {sl : Slot} (hi : i.slot? = some e)
    (hs : s.slot? e = some sl) : FollowsLifecycle i sl.phase s e (exec i s) := by
  cases i with
  | create e' m key nonce =>
    cases hi
    rw [exec, execCreate_eq hs]
    cases lookupId s.registry m with
    | none => exact followsLifecycle_invalidate hs rfl
    | some d =>
      dsimp only
      split_ifs
      · exact followsLifecycle_invalidate hs rfl
      · exact fun t ht => by cases ht
      · exact followsLifecycle_setSlot hs rfl
  | update e' data =>
    cases hi
    exact followsLifecycle_withEngine hs (fun _ => rfl) fun _ => followsLifecycle_setSlot hs rfl
  | setiv e' nonce =>
    cases hi
    refine followsLifecycle_withEngine hs id fun hp => ?_
    split
    · exact followsLifecycle_setSlot hs rfl
    · exact followsLifecycle_invalidate hs rfl
  | destroy e' =>
    cases hi
    rw [exec, execDestroy_eq hs]
    split_ifs with hp
    · exact followsLifecycle_respond hs hp
    · exact followsLifecycle_invalidate hs rfl
  | rdstate e' =>
    cases hi
    exact followsLifecycle_withDebug hs rfl
      (followsLifecycle_withEngine hs (fun _ => rfl) fun _ => followsLifecycle_respond hs rfl)
  | wrctr e' lo hi' =>
    cases hi
    exact followsLifecycle_withDebug hs rfl
      (followsLifecycle_withEngine hs (fun _ => rfl) fun _ => followsLifecycle_setSlot hs rfl)
  | resolve name => cases hi
  | qround a b c d => cases hi

/-- Settles O21: every path of a slot-addressed command ends in a response, and its slot in the phase R143 gives for it. -/
theorem phaseFollowsTheLifecycle : Obligations.PhaseFollowsTheLifecycle :=
  fun _ _ t _ _ hi hs ht => exec_followsLifecycle hi hs t ht

end Sys2Proof.Machine
end

section
/-! SUPPORT. The registry: it is configuration, which no step writes (R172); a lookup in it finds exactly the descriptor with the
name or the id (R174, R177); RESOLVE answers from it (R173, R175), in the default configuration as V40 says. -/

namespace Sys2Proof.Machine

/-! The configuration (R172, R185). -/

theorem config_exec {i : Instr} {s t : State} (h : exec i s = .next t) : t.config = s.config := by
  obtain ⟨hregistry, hdebug, -, hlen, -⟩ := onlyTheAddressedSlotChanges i s t h
  simp [State.config, hregistry, hdebug, hlen]

@[simp] theorem config_resetEvent (s : State) : (resetEvent s).config = s.config := by simp [State.config, resetEvent]

theorem config_step {s t : State} (h : step s = .next t) : t.config = s.config := by
  obtain ⟨-, rfl⟩ | ⟨rest, -, rfl⟩ | ⟨c, rest, r, -, -, rfl⟩ | ⟨c, rest, i, -, -, hexec⟩ := step_next_cases h
  · rfl
  · exact config_resetEvent { s with inbox := rest }
  · rfl
  · exact config_exec (s := { s with inbox := rest }) hexec

/-- Settles O16: the three are the fields of the configuration, which no step changes. -/
theorem configurationNeverChanges : Obligations.ConfigurationNeverChanges := by
  intro s t h
  have hconfig := config_step h
  exact ⟨congrArg Config.registry hconfig, congrArg Config.debugEn hconfig, congrArg Config.nEngines hconfig⟩

/-! The two lookups (R174, R177). -/

theorem registryLegal_iff (r : List Descriptor) :
    registryLegal r = true ↔ (∀ d ∈ r, d.legal = true) ∧ (r.map (·.id)).Nodup ∧ (r.map (·.name)).Nodup := by
  simp [registryLegal, and_assoc]

theorem name_ne_nil_of_legal {d : Descriptor} (h : d.legal = true) : d.name ≠ [] := by
  intro hname
  simp [Descriptor.legal, hname] at h

/-- A search by a key that is distinct on the list finds exactly the member with that key. -/
theorem find?_key_eq_some_iff {α κ : Type} [BEq κ] [LawfulBEq κ] {key : α → κ} {l : List α} (h : (l.map key).Nodup) (k : κ) (a : α) :
    l.find? (fun x => key x == k) = some a ↔ a ∈ l ∧ key a = k := by
  constructor
  · intro hfind
    exact ⟨List.mem_of_find?_eq_some hfind, by simpa using List.find?_some hfind⟩
  · rintro ⟨ha, rfl⟩
    obtain ⟨b, hfind⟩ : ∃ b, l.find? (fun x => key x == key a) = some b :=
      Option.isSome_iff_exists.mp (List.find?_isSome.mpr ⟨a, ha, by simp⟩)
    have hb : key b = key a := by simpa using List.find?_some hfind
    rwa [List.inj_on_of_nodup_map h (List.mem_of_find?_eq_some hfind) ha hb] at hfind

/-- Settles O59: ids and names are distinct keys of a legal registry, and none of its names is empty. -/
theorem lookupsFindExactlyTheDescriptor : Obligations.LookupsFindExactlyTheDescriptor := by
  intro r hr
  obtain ⟨hlegal, hids, hnames⟩ := (registryLegal_iff r).mp hr
  have hname := find?_key_eq_some_iff hnames
  refine ⟨hname, find?_key_eq_some_iff hids, Option.eq_none_iff_forall_ne_some.mpr fun d hd => ?_⟩
  obtain ⟨hmem, hempty⟩ := (hname [] d).mp hd
  exact name_ne_nil_of_legal (hlegal d hmem) hempty

/-! RESOLVE (R173, R175). -/

theorem respond_ok_of_length_eq_3 (s : State) {q : List Byte} (h : q.length = 3) :
    s.respond .ok q = { s with outbox := s.outbox ++ [⟨0x00030000, q⟩] } := by
  have hword : statusWord 3 .ok = 0x00030000 := by decide
  rw [State.respond, responseOf, h, hword]

/-- Settles O58: each answer's status word is that of its payload's length. -/
theorem resolveAnswersFromTheRegistry : Obligations.ResolveAnswersFromTheRegistry := by
  intro s name
  refine ⟨fun hnone => ?_, fun d hd => ?_⟩
  · rw [exec, execResolve_eq, hnone]; rfl
  · rw [exec, execResolve_eq, hd]; exact congrArg _ (respond_ok_of_length_eq_3 s rfl)

/-- Settles O60: the default registry names the first two and not the third, and its ids are 0 and 1. -/
theorem defaultRegistryAnswers : Obligations.DefaultRegistryAnswers := by
  have hresolve := resolveAnswersFromTheRegistry State.reset
  have hlegal : registryLegal State.reset.registry = true := by decide
  obtain ⟨-, hid, -⟩ := lookupsFindExactlyTheDescriptor State.reset.registry hlegal
  refine ⟨(hresolve _).2 descriptorClassic (by decide), (hresolve _).2 descriptorIetf (by decide),
    (hresolve _).1 (by decide), fun m hm => Option.eq_none_iff_forall_ne_some.mpr fun d hd => ?_⟩
  obtain ⟨hmem, rfl⟩ := (hid m d).mp hd
  have hids : ∀ d ∈ State.reset.registry, d.id.toNat < 2 := by decide
  exact absurd (hids d hmem) (by omega)

end Sys2Proof.Machine
end

section
/-! SUPPORT. Test access (R185 to R190): the OK responses with their status words written out (R76), and an UPDATE of exactly what
is left of the buffer, by which a counter WRCTR wrote takes effect (R150, R188). -/

namespace Sys2Proof.Machine

/-! The responses (R76, R186, R190). -/

theorem respond_ok_of_statusWord (s : State) {q : List Byte} {w : BitVec 32} (h : statusWord q.length .ok = w) :
    s.respond .ok q = { s with outbox := s.outbox ++ [⟨w, q⟩] } := by
  rw [State.respond, responseOf, h]

/-- The phase byte of a report on an engine (R30, R186). -/
theorem phaseCode_of_live {p : Phase} (h : p ≠ .uninit) : (phaseCode p).setWidth 8 = if p = .init then 1 else 2 := by
  cases p with
  | uninit => exact absurd rfl h
  | init => rfl
  | stream => rfl

theorem length_slotReport (sl : Slot) : (slotReport sl).length = 20 := rfl

/-- Settles O54: the answer is the slot's report of 20 bytes, whose phase byte is that of an engine. -/
theorem rdstateReportsTheSlot : Obligations.RdstateReportsTheSlot := by
  intro s e sl hd hs hp
  have hword : statusWord (slotReport sl).length .ok = 0x00140000 := by rw [length_slotReport]; decide
  rw [exec, execRdstate_eq hd hs hp, respond_ok_of_statusWord s hword, slotReport, phaseCode_of_live hp]

/-- The slot a successful WRCTR leaves (R188). -/
def counterSetSlot (sl : Slot) (lo hi : Word) : Slot := { sl with st := (sl.st.set 12 lo).set 13 hi }

theorem exec_wrctr_live {s : State} {e : SlotIndex} {sl : Slot} (hd : s.debugEn = true) (hs : s.slot? e = some sl)
    (hp : sl.phase ≠ .uninit) (lo hi : Word) :
    exec (.wrctr e lo hi) s = .next ((s.setSlot e (counterSetSlot sl lo hi)).respond .ok []) :=
  execWrctr_eq hd hs hp lo hi

/-- Settles O55: WRCTR on an engine writes the two words and answers an OK with no payload. -/
theorem wrctrWritesTheCounterOnly : Obligations.WrctrWritesTheCounterOnly := by
  intro s e sl lo hi hd hs hp
  have hword : statusWord ([] : List Byte).length .ok = 0x00000000 := by decide
  rw [exec_wrctr_live hd hs hp, respond_ok_of_statusWord _ hword]; rfl

/-- Settles O57: the answer is the 16 bytes of the four words of QR. -/
theorem qroundReturnsTheQuarterRound : Obligations.QroundReturnsTheQuarterRound := by
  intro s a b c d a' b' c' d' hd hqr
  have hword : statusWord (bytesLe32 a' ++ bytesLe32 b' ++ bytesLe32 c' ++ bytesLe32 d').length .ok = 0x00100000 := by
    have hlen : (bytesLe32 a' ++ bytesLe32 b' ++ bytesLe32 c' ++ bytesLe32 d').length = 16 := rfl
    rw [hlen]; decide
  rw [exec, execQround_eq hd, hqr, respond_ok_of_statusWord s hword]

/-! The next refill (R150, R188). -/

/-- An UPDATE of exactly what is left of the buffer refills once, by BLOCK, and consumes no byte of the new buffer (R150). -/
theorem streamedSlot_of_length_eq {sl : Slot} {data : List Byte} (h : data.length = 64 - sl.cur.val) :
    streamedSlot sl data = { block sl with phase := .stream } := by
  have hend : sl.cur.val + data.length = 64 := by omega
  refine slot_ext rfl (streamedSlot_mid sl data) ?_ ?_ ?_ (streamedSlot_draws sl data)
  · rw [streamedSlot_st, hend]; rfl
  · rw [streamedSlot_buf, hend]; rfl
  · rw [streamedSlot_cur, hend]; rfl

/-- Settles O56: WRCTR leaves cursor and buffer, so the UPDATE ends in one BLOCK from the words WRCTR left. -/
theorem wrctrTakesEffectAtTheNextRefill : Obligations.WrctrTakesEffectAtTheNextRefill := by
  intro s t e sl lo hi data hd hs hp hexec hlen
  rw [exec_wrctr_live hd hs hp] at hexec
  obtain rfl := Host.Outcome.next.inj hexec
  have hset : ((s.setSlot e (counterSetSlot sl lo hi)).respond .ok []).slot? e = some (counterSetSlot sl lo hi) :=
    slot?_setSlot_self hs _
  have hlen' : data.length = 64 - (counterSetSlot sl lo hi).cur.val := hlen
  refine ⟨_, _, exec_update_live hset hp data, ?_, slot?_setSlot_self hset _, ?_⟩
  · rw [← zipWith_unreadBytes _ data hlen'.le]; rfl
  · rw [streamedSlot_of_length_eq hlen']
    exact ⟨rfl, rfl, rfl⟩

end Sys2Proof.Machine
end

section
/-! SUPPORT. Errors and independence (R200 to R225): which statuses a command reports, and that a command reads nothing but the
configuration and the slot it addresses, so that commands to different slots commute. -/

namespace Sys2Proof.Machine

/-! Statuses and the idle unit (R204, R206, R225). -/

/-- Settles O3: an empty port leaves nothing to carry out. -/
theorem idleUnitKeepsAllState : Obligations.IdleUnitKeepsAllState := fun _ hin => step_idle hin

/-- Settles O46: the four commands share one check of the phase, and its answer is the response. -/
theorem emptySlotAnswersNoEngine : Obligations.EmptySlotAnswersNoEngine := by
  intro s e sl hs hp
  have hempty (k : Slot → Result) : withEngine s e k = .next { s with outbox := s.outbox ++ [⟨0x00000003, []⟩] } :=
    withEngine_empty hs hp k
  exact ⟨fun _ => hempty _, fun _ => hempty _, fun hd => (withDebug_on hd _).trans (hempty _),
    fun hd _ _ => (withDebug_on hd _).trans (hempty _)⟩

/-- Every row of R206 has OK. -/
theorem ok_mem_statusesOf (i : Instr) : .ok ∈ statusesOf i := by cases i <;> simp [statusesOf]

/-- Settles O20: the four writes of an engine answer OK; a command that writes nothing or empties its slot names its status. -/
theorem statusesByCommand : Obligations.StatusesByCommand := by
  intro i s t h
  obtain ⟨st, q, hst, rfl, hq⟩ | ⟨e, sl, -, -, hwrite⟩ := exec_next_cases h
  · exact ⟨st, q, hst, rfl, hq⟩
  · have hok := ok_mem_statusesOf i
    obtain ⟨_, _, _, -, -, -, rfl⟩ | ⟨_, -, -, rfl⟩ | ⟨_, -, -, -, rfl⟩ | ⟨_, _, -, -, rfl⟩ | ⟨st, hst, -, rfl⟩ := hwrite
    · exact ⟨.ok, _, hok, rfl, fun hne => absurd rfl hne⟩
    · exact ⟨.ok, _, hok, rfl, fun hne => absurd rfl hne⟩
    · exact ⟨.ok, _, hok, rfl, fun hne => absurd rfl hne⟩
    · exact ⟨.ok, _, hok, rfl, fun hne => absurd rfl hne⟩
    · exact ⟨st, [], hst, rfl, fun _ => rfl⟩

/-! What a command reads (R20). -/

/-- Two states a command that addresses the slot a, if any, cannot tell apart: the same configuration and the same slot there. -/
structure SameView (a : Option SlotIndex) (s s' : State) : Prop where
  registry : s'.registry = s.registry
  debugEn : s'.debugEn = s.debugEn
  slot : ∀ e, a = some e → s'.slot? e = s.slot? e

theorem SameView.symm {a : Option SlotIndex} {s s' : State} (h : SameView a s s') : SameView a s' s :=
  ⟨h.registry.symm, h.debugEn.symm, fun e he => (h.slot e he).symm⟩

/-- The state after at most one slot is written. -/
def State.writeSlot? (s : State) : Option (SlotIndex × Slot) → State
  | none => s
  | some (e, sl) => s.setSlot e sl

/-- From s and from s' one and the same is done: at most one write, to the slot a, and one response; or a refusal. -/
inductive SameAnswer (a : Option SlotIndex) (s s' : State) : Result → Result → Prop where
  | next (w : Option (SlotIndex × Slot)) (hw : ∀ e sl, w = some (e, sl) → a = some e) (st : Status) (q : List Byte) :
      SameAnswer a s s' (.next ((s.writeSlot? w).respond st q)) (.next ((s'.writeSlot? w).respond st q))
  | refused (r : Refusal) : SameAnswer a s s' (.refused r) (.refused r)

theorem SameAnswer.next_cases {a : Option SlotIndex} {s s' t : State} {r' : Result} (h : SameAnswer a s s' (.next t) r') :
    ∃ w st q, (∀ e sl, w = some (e, sl) → a = some e) ∧ t = (s.writeSlot? w).respond st q ∧
      r' = .next ((s'.writeSlot? w).respond st q) := by
  cases h with
  | next w hw st q => exact ⟨w, st, q, hw, rfl, rfl⟩

section
variable {a : Option SlotIndex} {e : SlotIndex} {s s' : State} {k k' : Slot → Result} {r r' : Result}

theorem sameAnswer_respond (st : Status) (q : List Byte) :
    SameAnswer a s s' (.next (s.respond st q)) (.next (s'.respond st q)) :=
  .next none (by simp) st q

theorem sameAnswer_setSlot (sl : Slot) (st : Status) (q : List Byte) :
    SameAnswer (some e) s s' (.next ((s.setSlot e sl).respond st q)) (.next ((s'.setSlot e sl).respond st q)) :=
  .next (some (e, sl)) (by rintro _ _ ⟨⟩; rfl) st q

theorem sameAnswer_invalidate (sl : Slot) (st : Status) (q : List Byte) :
    SameAnswer (some e) s s' (.next ((s.invalidate e sl).respond st q)) (.next ((s'.invalidate e sl).respond st q)) :=
  sameAnswer_setSlot _ st q

theorem sameAnswer_withSlot (h : SameView (some e) s s') (hk : ∀ sl, SameAnswer (some e) s s' (k sl) (k' sl)) :
    SameAnswer (some e) s s' (withSlot s e k) (withSlot s' e k') := by
  have hslot := h.slot e rfl
  cases hs : s.slot? e with
  | none => rw [withSlot_none hs, withSlot_none (hslot.trans hs)]; exact sameAnswer_respond _ _
  | some sl => rw [withSlot_some hs, withSlot_some (hslot.trans hs)]; exact hk sl

theorem sameAnswer_withEngine (h : SameView (some e) s s') (hk : ∀ sl, SameAnswer (some e) s s' (k sl) (k' sl)) :
    SameAnswer (some e) s s' (withEngine s e k) (withEngine s' e k') := by
  refine sameAnswer_withSlot h fun sl => ?_
  split
  · exact sameAnswer_respond _ _
  · exact hk sl

theorem sameAnswer_withDebug (h : SameView a s s') (hr : SameAnswer a s s' r r') :
    SameAnswer a s s' (withDebug s r) (withDebug s' r') := by
  unfold withDebug
  rw [h.debugEn]
  split
  · exact hr
  · exact sameAnswer_respond _ _

end

/-- A command depends on nothing but the configuration and the slot it addresses. -/
theorem exec_sameAnswer {i : Instr} {s s' : State} (h : SameView i.slot? s s') :
    SameAnswer i.slot? s s' (exec i s) (exec i s') := by
  cases i with
  | resolve name =>
    simp only [exec, execResolve, h.registry]
    cases lookupName s.registry name with
    | none => exact sameAnswer_respond _ _
    | some d => exact sameAnswer_respond _ _
  | create e m key nonce =>
    refine sameAnswer_withSlot h fun sl => ?_
    rw [h.registry]
    cases lookupId s.registry m with
    | none => exact sameAnswer_invalidate sl _ _
    | some d =>
      dsimp only
      split_ifs
      · exact sameAnswer_invalidate sl _ _
      · exact sameAnswer_invalidate sl _ _
      · exact .refused _
      · exact sameAnswer_setSlot _ _ _
  | update e data =>
    refine sameAnswer_withEngine h fun sl => ?_
    rw [h.registry]
    exact sameAnswer_setSlot _ _ _
  | setiv e nonce =>
    refine sameAnswer_withEngine h fun sl => ?_
    rw [h.registry]
    split
    · exact sameAnswer_setSlot _ _ _
    · exact sameAnswer_invalidate sl _ _
  | destroy e =>
    refine sameAnswer_withSlot h fun sl => ?_
    split
    · exact sameAnswer_respond _ _
    · exact sameAnswer_invalidate sl _ _
  | rdstate e => exact sameAnswer_withDebug h (sameAnswer_withEngine h fun _ => sameAnswer_respond _ _)
  | wrctr e lo hi => exact sameAnswer_withDebug h (sameAnswer_withEngine h fun _ => sameAnswer_setSlot _ _ _)
  | qround a b c d => exact sameAnswer_withDebug h (sameAnswer_respond _ _)

/-! Commands to different slots (R222). -/

/-- A command changes nothing that a command to another slot reads. -/
theorem exec_sameView {i : Instr} {a : Option SlotIndex} {s t : State} (hdisjoint : ∀ e, i.slot? = some e → a ≠ some e)
    (h : exec i s = .next t) : SameView a s t := by
  obtain ⟨hregistry, hdebug, -, -, hslots, -⟩ := onlyTheAddressedSlotChanges i s t h
  refine ⟨hregistry, hdebug, fun e he => hslots e.toNat fun e' he' heq => ?_⟩
  obtain rfl := BitVec.eq_of_toNat_eq heq
  exact hdisjoint e he' he

@[simp] theorem writeSlot?_registry (s : State) (w : Option (SlotIndex × Slot)) : (s.writeSlot? w).registry = s.registry := by
  cases w <;> rfl
@[simp] theorem writeSlot?_debugEn (s : State) (w : Option (SlotIndex × Slot)) : (s.writeSlot? w).debugEn = s.debugEn := by
  cases w <;> rfl
@[simp] theorem writeSlot?_inbox (s : State) (w : Option (SlotIndex × Slot)) : (s.writeSlot? w).inbox = s.inbox := by
  cases w <;> rfl
@[simp] theorem writeSlot?_outbox (s : State) (w : Option (SlotIndex × Slot)) : (s.writeSlot? w).outbox = s.outbox := by
  cases w <;> rfl

/-- A response given between two writes changes neither. -/
theorem writeSlot?_respond_slots (s : State) (st : Status) (q : List Byte) (w : Option (SlotIndex × Slot)) :
    ((s.respond st q).writeSlot? w).slots = (s.writeSlot? w).slots := by
  cases w <;> rfl

theorem writeSlot?_comm (s : State) {v w : Option (SlotIndex × Slot)}
    (h : ∀ e x e' y, v = some (e, x) → w = some (e', y) → e ≠ e') :
    (s.writeSlot? v).writeSlot? w = (s.writeSlot? w).writeSlot? v := by
  match v, w with
  | none, _ => rfl
  | some _, none => rfl
  | some (e, x), some (e', y) =>
    have hne : e.toNat ≠ e'.toNat := fun heq => h e x e' y rfl rfl (BitVec.eq_of_toNat_eq heq)
    simp [State.writeSlot?, State.setSlot, List.set_comm x y hne]

/-- Settles O22: neither command changes what the other reads, so each does in the other order what it did in this one, and their
writes are to different slots. -/
theorem commandsToDifferentSlotsCommute : Obligations.CommandsToDifferentSlotsCommute := by
  intro i j s t u hdisjoint hi hj
  have hjFirst := exec_sameAnswer (exec_sameView hdisjoint hi).symm
  rw [hj] at hjFirst
  obtain ⟨wj, stj, qj, hwj, rfl, ht'⟩ := hjFirst.next_cases
  have hiSecond := exec_sameAnswer (exec_sameView (fun e hje hie => hdisjoint e hie hje) ht')
  rw [hi] at hiSecond
  obtain ⟨wi, sti, qi, hwi, rfl, hu'⟩ := hiSecond.next_cases
  refine ⟨_, _, responseOf sti qi, responseOf stj qj, ht', hu', by simp, by simp, ?_, by simp, by simp, by simp⟩
  have hcomm : (s.writeSlot? wj).writeSlot? wi = (s.writeSlot? wi).writeSlot? wj := by
    refine writeSlot?_comm s fun e x e' y hx hy => ?_
    rintro rfl
    exact hdisjoint e (hwi e y hy) (hwj e x hx)
  simp only [respond_slots, writeSlot?_respond_slots, hcomm]

end Sys2Proof.Machine
end

section
/-! SUPPORT. Reset and the counter's hazards (R230, R241, R242): the slots after a reset event, word 13 as the number of carries
out of word 12, and the keystream started some blocks later. -/

namespace Sys2Proof.Machine

/-! The reset event (R230). -/

theorem length_resetEvent_slots (s : State) : (resetEvent s).slots.length = s.slots.length := List.length_mapIdx

theorem resetEvent_slots_uninit {s : State} {sl : Slot} (h : sl ∈ (resetEvent s).slots) : sl.phase = .uninit := by
  obtain ⟨e, he, rfl⟩ := List.mem_mapIdx.mp h
  exact freedSlot_phase e _

/-- Settles O2: a reset at the port is taken, and every slot is then a freed one. -/
theorem resetEventEmptiesEverySlot : Obligations.ResetEventEmptiesEverySlot := by
  intro s rest h
  exact ⟨_, step_reset h, length_resetEvent_slots _, fun _ => resetEvent_slots_uninit, resetEvent_registry _,
    resetEvent_debugEn _, resetEvent_inbox _, resetEvent_outbox _⟩

/-! The two counter words after g increments (R130, R241, R242). -/

theorem counterAfter_word12_toNat (g : Nat) (st : Vector Word 16) :
    (counterAfter g st)[12].toNat = (st[12].toNat + g) % 2 ^ 32 := by
  obtain ⟨-, hlow, -⟩ := counterCountsBlocks g st
  exact hlow

/-- Word 13 counts the carries out of word 12. -/
theorem counterAfter_word13_toNat (g : Nat) (st : Vector Word 16) :
    (counterAfter g st)[13].toNat = (st[13].toNat + (st[12].toNat + g) / 2 ^ 32) % 2 ^ 32 := by
  obtain ⟨hpair, hlow, -⟩ := counterCountsBlocks g st
  omega

theorem counterAfter_of_wrap {n : Nat} (hn : n % 2 ^ 64 = 0) (st : Vector Word 16) : counterAfter n st = st := by
  refine Vector.ext fun i hi => ?_
  by_cases h12 : i = 12
  · subst h12
    have hword := counterAfter_word12_toNat n st
    exact BitVec.eq_of_toNat_eq (by omega)
  · by_cases h13 : i = 13
    · subst h13
      have hword := counterAfter_word13_toNat n st
      exact BitVec.eq_of_toNat_eq (by omega)
    · exact counterAfter_other n st i hi h12 h13

/-- The keystream from 64 n bytes on is the keystream that starts from the words n blocks later. -/
theorem keystreamByte_add_blocks (st : Vector Word 16) (p n : Nat) :
    keystreamByte st (p + 64 * n) = keystreamByte (counterAfter n st) p := by
  rw [keystreamByte, keystreamByte, Nat.add_mul_div_left p n (by decide), counterAfter_add]
  exact bufferByte_congr _ (Nat.add_mul_mod_self_left p 64 n)

/-- Settles O36: after a multiple of 2^64 increments the words are those of the start, so the keystream from there on is the
keystream from the start. -/
theorem classicCounterWraps : Obligations.ClassicCounterWraps := by
  intro st n hn
  have hwords := counterAfter_of_wrap hn st
  exact ⟨hwords, fun p => by rw [keystreamByte_add_blocks, hwords]⟩

/-- Settles O37: from counter word 0 there is no carry in fewer than 2^32 increments, and one in 2^32. -/
theorem carryReachesTheNonceWord : Obligations.CarryReachesTheNonceWord := by
  intro s1 h0
  have hzero : s1[12].toNat = 0 := by rw [h0]; rfl
  refine ⟨fun g hg => BitVec.eq_of_toNat_eq ?_, BitVec.eq_of_toNat_eq ?_, BitVec.eq_of_toNat_eq ?_⟩
  · rw [counterAfter_word13_toNat, hzero]
    omega
  · rw [counterAfter_word12_toNat, hzero]
    rfl
  · rw [counterAfter_word13_toNat, hzero, BitVec.toNat_add]
    rfl

end Sys2Proof.Machine
end

section
/-! SUPPORT. Concrete commands (V42, V40, V43): a command is decoded by naming the instruction it encodes, since decode inverts
encode on the well-formed instructions of a configuration. -/

namespace Sys2Proof

/-- To decode a command, exhibit a well-formed instruction that encodes to it. -/
theorem decode_eq_ok_of_encode_eq {cfg : Config} {c : Command} {i : Instr} (hwf : i.wellFormed cfg = true)
    (henc : encode i = c) : decode cfg c = .ok i := by
  rw [← henc]
  exact decodeOfEncodeIsTheInstruction cfg i hwf

/-- Settles O11: each of the eight commands is the encoding of the instruction it is to decode to, and that instruction is well formed
in the default configuration. -/
theorem exampleHeadersDecode : Obligations.ExampleHeadersDecode := by
  refine ⟨?create, ?update, ?setiv, ?destroy, ?resolve, ?rdstate, ?wrctr, ?qround⟩
  all_goals exact decode_eq_ok_of_encode_eq (by decide) (by decide)

end Sys2Proof
end
